-- ==== Sys2Proof/Word.lean ====
section
/-! DEFINITION. The byte, the host word, and the names of the two-byte commands of the target. -/

namespace Sys2Proof

/-- Eight bits, bit 0 least significant (R8): every quantity that crosses an interface (R67). -/
abbrev Byte := BitVec 8

/-- A host request: the operation code in bits 10 to 8 and the operand in bits 7 to 0 (R90). -/
abbrev HostWord := BitVec 11

/-- The nine commands that take a parameter byte (R95), as `T.pending` names them (R39). -/
inductive TwoByte where
  | addrMode | contrast | chargePump | muxRatio | dispOffset | clkDiv | precharge | comPins | vcomDesel
  deriving DecidableEq, Repr

end Sys2Proof
end

