-- ==== Sys2Proof/Config.lean ====
section
/-! DEFINITION. What an instance fixes (the record `cfg`), and the free values: the environment's answers, and
`ERR_SEQ` after a request that did not abort. -/

namespace Sys2Proof

/-- The bus the block drives (R6). -/
inductive Transport where
  | i2c | spi
  deriving DecidableEq, Repr

/-- The configuration record `cfg` (R6): fixed when the block leaves reset, written by no operation (R20).
The legal values are `Cfg.legal` (WellFormed.lean). The rule types the holds as durations and the rate as a
frequency; that the holds are whole milliseconds and the rate a natural number of hertz is a DESIGN CHOICE
(unsafe), log entry 17. -/
structure Cfg where
  width       : Nat
  height      : Nat
  externalVcc : Bool
  transport   : Transport
  i2cAddr     : BitVec 7 := 0x3C
  spiRate     : Nat
  tRstA       : Nat := 1
  tRstB       : Nat := 10
  tRstC       : Nat := 100
  deriving DecidableEq, Repr

/-- What the environment says to the transport call under way (R215): `wait`, not answered yet (U13);
`ok`; or `fail`, with how many bytes an SPI transfer put on the wire before it broke off (R226) and how
many bytes of the transaction the target received (R252). The two numbers are drawn independently (V46);
a number above the length of the transaction stands for the whole of it. -/
inductive Answer where
  | wait
  | ok
  | fail (sent received : Nat)
  deriving DecidableEq, Repr, Inhabited

/-- The n-th answer the environment gives once the answers held in State are used up: a FREE VALUE, under no
law (R215), log entry 3. -/
opaque Config.freeAnswer : Nat → Answer

/-- `SEQ`, the sequencer position (R27); the page index of the show positions is `PAGE` (R26). -/
inductive Machine.Seq where
  | idle
  | rom (i : Fin 25)
  | clear
  | pageSel (p : Nat)
  | colLow (p : Nat)
  | colHigh (p : Nat)
  | data (p : Nat)
  | tog (k : Fin 2)
  deriving DecidableEq, Repr, Inhabited

/-- What `ERR_SEQ` holds after the n-th request that ended without an abort: a FREE VALUE, since R257 and R124 have
such a request overwrite it and no rule says with what, log entry 18. -/
opaque Config.freeErrSeq : Nat → Machine.Seq

/-- The instance `State.reset` is taken at: 128 × 64, internal supply, I2C at 0x3C (S1, P1). DESIGN CHOICE,
log entry 1: the spec gives width, height, supply, transport and SPI rate no default. -/
def Config.board : Cfg :=
  { width := 128, height := 64, externalVcc := false, transport := .i2c, spiRate := 10000000 }

end Sys2Proof
end

