-- ==== Sys2Proof/Syntax.lean ====
section
/-! DEFINITION. The instructions: one constructor per row of spec/opcode_table.json. -/

namespace Sys2Proof

/-- The two levels of the block's instruction set (R2) and the two I2C control bytes (R101). -/
inductive Instr where
  -- host operations (R90); the operand bits an operation ignores are kept (R91)
  | hInit (arg : Byte)
  | hShow (arg : Byte)
  | hPowerOff (arg : Byte)
  | hPowerOn (arg : Byte)
  | hSetContrast (value : Byte)
  | hSetInvert (arg : Byte)
  /-- Operation codes 6 (`code = 0`) and 7 (`code = 1`). -/
  | hReserved (code : BitVec 1) (arg : Byte)
  -- commands of the target (R93), a two-byte command with its parameter (R92)
  | cColLow (n : BitVec 4)
  | cColHigh (n : BitVec 4)
  | cAddrMode (param : Byte)
  | cStartLine (line : BitVec 6)
  | cContrast (param : Byte)
  | cChargePump (param : Byte)
  | cSegRemap (r : BitVec 1)
  | cEntireOn
  | cNormInv (v : BitVec 1)
  | cMuxRatio (param : Byte)
  | cDisp (on : BitVec 1)
  | cPage (page : BitVec 3)
  | cComScan (d : BitVec 1)
  | cDispOffset (param : Byte)
  | cClkDiv (param : Byte)
  | cPrecharge (param : Byte)
  | cComPins (param : Byte)
  | cVcomDesel (param : Byte)
  -- the first payload byte of an I2C transaction, with what follows it (R101)
  | i2cCtrlCmd (b : Byte)
  | i2cCtrlData (bs : List Byte)
  deriving DecidableEq, Repr

end Sys2Proof
end

