-- ==== Sys2Proof/WellFormed.lean ====
section
/-! DEFINITION. Which instructions and which configurations are well formed. -/

namespace Sys2Proof

/-- Every operand fills its field, so the one check is R100's: a data write carries at least one byte. -/
def Instr.wf : Instr → Bool
  | .i2cCtrlData bs => !bs.isEmpty
  | _ => true

/-- The legal configurations (R6, D3): width 1 to 132, height 1 to 64, and no reset hold below its
minimum of 1, 10 and 100 ms. -/
def Cfg.legal (c : Cfg) : Bool :=
  decide (1 ≤ c.width ∧ c.width ≤ 132) && decide (1 ≤ c.height ∧ c.height ≤ 64) &&
    decide (1 ≤ c.tRstA ∧ 10 ≤ c.tRstB ∧ 100 ≤ c.tRstC)

end Sys2Proof
end

