-- ==== Sys2Proof/Decode.lean ====
section
/-! DEFINITION. Decoding and encoding: the host word (R90), the command stream (R92 to R96) and the I2C
payload (R101). Which of the three a word belongs to is told by its position, never by its value (R98, R143). -/

namespace Sys2Proof

/-- Why bytes are no instruction. -/
inductive DecodeError where
  /-- No byte at all. -/
  | noBytes
  /-- A command byte outside the map (R99). -/
  | unmappedCommand (b : Byte)
  /-- A two-byte command whose parameter byte has not arrived (R95). -/
  | missingParameter (m : TwoByte)
  /-- Bytes left over after a complete instruction. -/
  | trailingBytes
  /-- A first payload byte that is neither 0x00 nor 0x40 (R217). -/
  | badControlByte (b : Byte)
  /-- A 0x00 transaction with more or fewer than one following byte (R217). -/
  | badCommandFrame
  /-- A 0x40 transaction with no following byte (R100). -/
  | emptyDataFrame
  deriving DecidableEq, Repr

/-! ### The host word -/

/-- R90, R91: the operation code selects, the operand is kept whole. Total: codes 6 and 7 are the reserved
request. -/
def decodeHost (w : HostWord) : Instr :=
  let arg : Byte := w.extractLsb' 0 8
  match (w.extractLsb' 8 3).toNat with
  | 0 => .hInit arg
  | 1 => .hShow arg
  | 2 => .hPowerOff arg
  | 3 => .hPowerOn arg
  | 4 => .hSetContrast arg
  | 5 => .hSetInvert arg
  | _ => .hReserved (w.extractLsb' 8 1) arg

/-- `{op[2:0], arg[7:0]}` (R90). -/
def hostWord (op : BitVec 3) (arg : Byte) : HostWord := op ++ arg

/-! ### The command stream -/

/-- What a command byte is: a whole instruction, the first byte of a two-byte command, or outside the map. -/
inductive CommandByte where
  | one (i : Instr)
  | two (m : TwoByte)
  | unmapped
  deriving DecidableEq, Repr

/-- The command byte map, in the order of R93's table: `b & mask = match` selects the row. -/
def classify (b : Byte) : CommandByte :=
  if b &&& 0xF0 = 0x00 then .one (.cColLow (b.extractLsb' 0 4))
  else if b &&& 0xF0 = 0x10 then .one (.cColHigh (b.extractLsb' 0 4))
  else if b &&& 0xFF = 0x20 then .two .addrMode
  else if b &&& 0xC0 = 0x40 then .one (.cStartLine (b.extractLsb' 0 6))
  else if b &&& 0xFF = 0x81 then .two .contrast
  else if b &&& 0xFF = 0x8D then .two .chargePump
  else if b &&& 0xFE = 0xA0 then .one (.cSegRemap (b.extractLsb' 0 1))
  else if b &&& 0xFF = 0xA4 then .one .cEntireOn
  else if b &&& 0xFE = 0xA6 then .one (.cNormInv (b.extractLsb' 0 1))
  else if b &&& 0xFF = 0xA8 then .two .muxRatio
  else if b &&& 0xFE = 0xAE then .one (.cDisp (b.extractLsb' 0 1))
  else if b &&& 0xF8 = 0xB0 then .one (.cPage (b.extractLsb' 0 3))
  else if b &&& 0xF7 = 0xC0 then .one (.cComScan (b.extractLsb' 3 1))
  else if b &&& 0xFF = 0xD3 then .two .dispOffset
  else if b &&& 0xFF = 0xD5 then .two .clkDiv
  else if b &&& 0xFF = 0xD9 then .two .precharge
  else if b &&& 0xFF = 0xDA then .two .comPins
  else if b &&& 0xFF = 0xDB then .two .vcomDesel
  else .unmapped

/-- A two-byte command with its parameter byte, whose eight bits are all operand (R92). -/
def withParam (m : TwoByte) (p : Byte) : Instr :=
  match m with
  | .addrMode => .cAddrMode p
  | .contrast => .cContrast p
  | .chargePump => .cChargePump p
  | .muxRatio => .cMuxRatio p
  | .dispOffset => .cDispOffset p
  | .clkDiv => .cClkDiv p
  | .precharge => .cPrecharge p
  | .comPins => .cComPins p
  | .vcomDesel => .cVcomDesel p

/-- The command byte of a two-byte command (R93). -/
def commandByte : TwoByte → Byte
  | .addrMode => 0x20
  | .contrast => 0x81
  | .chargePump => 0x8D
  | .muxRatio => 0xA8
  | .dispOffset => 0xD3
  | .clkDiv => 0xD5
  | .precharge => 0xD9
  | .comPins => 0xDA
  | .vcomDesel => 0xDB

/-- The first instruction of a command stream and what is left of the stream (R95). -/
def decodeCommand : List Byte → Except DecodeError (Instr × List Byte)
  | [] => .error .noBytes
  | b :: rest =>
    match classify b with
    | .one i => .ok (i, rest)
    | .unmapped => .error (.unmappedCommand b)
    | .two m =>
      match rest with
      | [] => .error (.missingParameter m)
      | p :: rest' => .ok (withParam m p, rest')

/-! ### The I2C payload -/

/-- The payload of one I2C write transaction (R101, R217). -/
def decodeFrame : List Byte → Except DecodeError Instr
  | [] => .error .noBytes
  | c :: rest =>
    if c = 0x00 then
      match rest with
      | [b] => .ok (.i2cCtrlCmd b)
      | _ => .error .badCommandFrame
    else if c = 0x40 then
      match rest with
      | [] => .error .emptyDataFrame
      | bs => .ok (.i2cCtrlData bs)
    else .error (.badControlByte c)

/-! ### The three encodings as one -/

/-- An instruction as it is written down: a host word, bytes of the command stream, or an I2C payload. -/
inductive Image where
  | host (w : HostWord)
  | command (bs : List Byte)
  | frame (payload : List Byte)
  deriving DecidableEq, Repr

/-- The instruction an image holds, and nothing else. -/
def decode : Image → Except DecodeError Instr
  | .host w => .ok (decodeHost w)
  | .command bs =>
    match decodeCommand bs with
    | .ok (i, []) => .ok i
    | .ok (_, _ :: _) => .error .trailingBytes
    | .error e => .error e
  | .frame payload => decodeFrame payload

/-- The image of an instruction, from the tables of R90, R93 and R101. -/
def encode : Instr → Image
  | .hInit arg => .host (hostWord 0 arg)
  | .hShow arg => .host (hostWord 1 arg)
  | .hPowerOff arg => .host (hostWord 2 arg)
  | .hPowerOn arg => .host (hostWord 3 arg)
  | .hSetContrast value => .host (hostWord 4 value)
  | .hSetInvert arg => .host (hostWord 5 arg)
  | .hReserved code arg => .host (hostWord ((0b11 : BitVec 2) ++ code) arg)
  | .cColLow n => .command [(0x0 : BitVec 4) ++ n]
  | .cColHigh n => .command [(0x1 : BitVec 4) ++ n]
  | .cAddrMode p => .command [0x20, p]
  | .cStartLine line => .command [(0b01 : BitVec 2) ++ line]
  | .cContrast p => .command [0x81, p]
  | .cChargePump p => .command [0x8D, p]
  | .cSegRemap r => .command [(0b1010000 : BitVec 7) ++ r]
  | .cEntireOn => .command [0xA4]
  | .cNormInv v => .command [(0b1010011 : BitVec 7) ++ v]
  | .cMuxRatio p => .command [0xA8, p]
  | .cDisp on => .command [(0b1010111 : BitVec 7) ++ on]
  | .cPage page => .command [(0b10110 : BitVec 5) ++ page]
  | .cComScan d => .command [(0xC : BitVec 4) ++ d ++ (0b000 : BitVec 3)]
  | .cDispOffset p => .command [0xD3, p]
  | .cClkDiv p => .command [0xD5, p]
  | .cPrecharge p => .command [0xD9, p]
  | .cComPins p => .command [0xDA, p]
  | .cVcomDesel p => .command [0xDB, p]
  | .i2cCtrlCmd b => .frame [0x00, b]
  | .i2cCtrlData bs => .frame (0x40 :: bs)

/-! ### Words as the opcode table numbers them -/

/-- Where a table word is laid out: up to 8 bits a byte, up to 16 a host word. The byte values 0x00 and 0x40
stand in two rows of the table each, told apart only by position (R143); a word alone has no position, so
they are laid out as the I2C control bytes (log 10). Operand bytes are zeros. -/
def tableImage (nbits w : Nat) : Option Image :=
  if nbits ≤ 8 then
    if w < 256 then
      let b : Byte := BitVec.ofNat 8 w
      if b = 0x00 ∨ b = 0x40 then some (.frame [b, 0x00])
      else
        match classify b with
        | .two _ => some (.command [b, 0x00])
        | _ => some (.command [b])
    else none
  else if nbits ≤ 16 then
    if w < 2048 then some (.host (BitVec.ofNat 11 w)) else none
  else none

/-- The instruction the decoder reads from a table word. -/
def decodeTableWord (nbits w : Nat) : Option Instr :=
  match tableImage nbits w with
  | none => none
  | some image =>
    match decode image with
    | .ok i => some i
    | .error _ => none

end Sys2Proof
end

