-- ==== Sys2Proof/Machine/State.lean ====
section
/-! DEFINITION. The state of the block, of the target shadow and of the two observation traces; the reasons a
step stops; the state after reset (10_state.md). -/

namespace Sys2Proof.Machine

/-- A byte memory: pairs of address and byte, addresses strictly rising. An address that is not listed has NO
VALUE (R42), so no byte is left out of the list and every list in rising order is canonical. -/
abbrev Memory := List Host.Cell

/-- The canonical form of a memory. -/
abbrev Memory.wf (m : Memory) : Prop := m.Pairwise (fun x y => x.1 < y.1)

/-- A register for which the spec tells "has no value" from every value (R42): the marker and the bits. The
bits of a register that has no value are the model's (log 8). -/
structure Reg (w : Nat) where
  has : Bool
  val : BitVec w
  deriving DecidableEq, Repr

/-- A register that holds `v`. -/
def Reg.of {w : Nat} (v : BitVec w) : Reg w := { has := true, val := v }

/-- A register that has no value; its bits are zero (DESIGN CHOICE, log 8). -/
def Reg.blank {w : Nat} : Reg w := { has := false, val := 0 }

/-- `LC`, the lifecycle state (R22). -/
inductive Lifecycle where
  | uninitialized | initializing | active
  deriving DecidableEq, Repr

/-- `STATUS` (R29). -/
inductive Status where
  | ok | busError | rejected
  deriving DecidableEq, Repr

/-- `TR`, the adapter phase (R33). -/
inductive Phase where
  | unreset | pulseA | pulseB | pulseC | ready
  deriving DecidableEq, Repr

/-- What the engine hands the adapter (R100): a command write of one byte or a data write. -/
inductive Call where
  | wc (b : Byte)
  | wd (bs : List Byte)
  deriving DecidableEq, Repr

/-- One entry of the transport trace (R10): a call and whether it was answered `ok`. -/
structure CallRecord where
  call : Call
  ok   : Bool
  deriving DecidableEq, Repr

/-- One event of the wire trace (R216, R221). A delay is given by its lower bound (R225, log 4). -/
inductive WireEvent where
  | i2cWr (addr : BitVec 7) (payload : List Byte)
  | spiCfg (rate : Nat) (mode : BitVec 2)
  | cs (v : Bool)
  | dc (v : Bool)
  | rst (v : Bool)
  | tx (b : Byte)
  | delay (atLeast : Nat)
  deriving DecidableEq, Repr

/-- The pair (clock rate, mode) of the serial lines (R35), with R42's marker. -/
structure SpiBus where
  has  : Bool
  rate : Nat
  mode : BitVec 2
  deriving DecidableEq, Repr

/-- The SPI lines (R34) and the bus configuration (R35). On an I2C instance nothing drives them. -/
structure Lines where
  cs  : Bool
  dc  : Bool
  rst : Reg 1
  bus : SpiBus
  deriving DecidableEq, Repr

/-- R42: `CS = 1`, `DC = 0`, `RST` and the bus configuration no value. -/
def Lines.reset : Lines :=
  { cs := true, dc := false, rst := Reg.blank, bus := { has := false, rate := 0, mode := 0 } }

/-- The target shadow `T` (10_state.md section 6). `gram` is keyed by page * 132 + column (R37). -/
structure Target where
  gram       : Memory
  page       : Reg 3
  colHi      : Reg 4
  colLo      : Reg 4
  pending    : Option TwoByte
  fault      : Bool
  dispOn     : Reg 1
  addrMode   : Reg 8
  startLine  : Reg 6
  segRemap   : Reg 1
  muxRatio   : Reg 8
  comScan    : Reg 1
  dispOffset : Reg 8
  comPins    : Reg 8
  clkDiv     : Reg 8
  precharge  : Reg 8
  vcomDesel  : Reg 8
  contrast   : Reg 8
  entireOn   : Reg 1
  invert     : Reg 1
  chargePump : Reg 8
  deriving DecidableEq, Repr

/-- R42: no field has a value, nothing is pending, no fault. -/
def Target.reset : Target :=
  { gram := [], page := Reg.blank, colHi := Reg.blank, colLo := Reg.blank, pending := none, fault := false,
    dispOn := Reg.blank, addrMode := Reg.blank, startLine := Reg.blank, segRemap := Reg.blank,
    muxRatio := Reg.blank, comScan := Reg.blank, dispOffset := Reg.blank, comPins := Reg.blank,
    clkDiv := Reg.blank, precharge := Reg.blank, vcomDesel := Reg.blank, contrast := Reg.blank,
    entireOn := Reg.blank, invert := Reg.blank, chargePump := Reg.blank }

/-- A move of the host while `BUSY = 0` (R126): a request, a write of one frame-buffer byte, or none, which lets
whatever else can move do so (log 2, log 6). -/
inductive HostMove where
  | req (w : HostWord)
  | fbWrite (a : Nat) (v : Byte)
  | pass
  deriving DecidableEq, Repr

/-- What reaches the target from something other than this engine (R130, R160; log 5): the payload of an I2C
transaction, a byte of the command stream, or a data byte. -/
inductive Arrival where
  | payload (bs : List Byte)
  | cmd (b : Byte)
  | data (v : Byte)
  deriving DecidableEq, Repr

/-- The whole machine. -/
structure State where
  /-- The instance's configuration; written by no step (R20; log 1). -/
  cfg     : Cfg
  lc      : Lifecycle
  busy    : Bool
  op      : BitVec 3
  arg     : Byte
  coloff  : BitVec 7
  seq     : Seq
  status  : Status
  cfgWarn : Bool
  errSeq  : Seq
  fb      : Memory
  tr      : Phase
  lines   : Lines
  t       : Target
  /-- The transport trace, oldest first (R10). -/
  calls   : List CallRecord
  /-- The wire trace, oldest first (R10). -/
  wire    : List WireEvent
  /-- MODEL'S OWN: the host's moves to come, next first (log 2). -/
  host    : List HostMove
  /-- MODEL'S OWN: what is to reach the target from outside, next first (log 5). -/
  tin     : List Arrival
  /-- MODEL'S OWN: the environment's answers already chosen, next first (log 3). -/
  script  : List Answer
  /-- MODEL'S OWN: how many free answers have been taken (log 3). -/
  drawn   : Nat
  /-- MODEL'S OWN: how many requests have ended without an abort, each with a free `ERR_SEQ` (log 18). -/
  ended   : Nat
  deriving DecidableEq, Repr

/-- R42 and R280 for an instance `c`; the registers the rule gives no value are zero or Idle (log 7). -/
def State.resetOf (c : Cfg) : State :=
  { cfg := c, lc := .uninitialized, busy := false, op := 0, arg := 0, coloff := 0, seq := .idle,
    status := .ok, cfgWarn := false, errSeq := .idle, fb := [],
    tr := match c.transport with
      | .i2c => .ready
      | .spi => .unreset
    lines := Lines.reset, t := Target.reset, calls := [], wire := [],
    host := [], tin := [], script := [], drawn := 0, ended := 0 }

/-- The machine after reset, at the instance `Config.board` (log 1). -/
def State.reset : State := State.resetOf Config.board

/-- The reasons the model stops at a fault. -/
inductive Fault where
  /-- Raised by the `Data(p)` step on a frame-buffer byte that has no value (R32). Safe. -/
  | fbNoValue (a : Nat)
  /-- Raised by a host write, or by the `Data(p)` step, at an index not below FB_SIZE (R126, R70). Safe. -/
  | fbOutOfRange (a : Nat)
  /-- Raised by the sequencer at a position the spec gives no call: `Idle` while BUSY, or a toggle byte the
  operation does not have (R185). Only in states no run reaches. Safe. -/
  | noSuchPosition (q : Seq)
  deriving DecidableEq, Repr

/-- The reasons the model refuses. -/
inductive Refusal where
  /-- Raised by an arm of exec whose instruction has no meaning yet. Safe. -/
  | notModelled (mnemonic : String)
  /-- Raised by every step, and by the dispatch of a request, of an instance with an illegal cfg (R20). Safe. -/
  | illegalConfig
  /-- Raised when an I2C payload of no known form arrives at the target from outside (R217). Safe. -/
  | unknownFrame (payload : List Byte)
  deriving DecidableEq, Repr

/-- What a step answers. -/
abbrev Result := Host.Outcome State Fault Refusal

end Sys2Proof.Machine
end

