-- ==== Sys2Proof/Machine/Ops.lean ====
section
/-! DEFINITION. The named operations: memory, the environment's answer, the wire, the two exceptions and
completion. -/

namespace Sys2Proof.Machine

/-! ### Memory -/

/-- The byte at an address; none where it has no value (R42). -/
def Memory.read : Memory → Nat → Option Byte
  | [], _ => none
  | (k, v) :: m, a => if k = a then some v else Memory.read m a

/-- Write one byte, keeping addresses in rising order. -/
def Memory.write : Memory → Nat → Byte → Memory
  | [], a, v => [(a, v)]
  | (k, w) :: m, a, v =>
    if a < k then (a, v) :: (k, w) :: m
    else if a = k then (a, v) :: m
    else (k, w) :: Memory.write m a v

/-- Write zero to every address below `n`, in rising order (R174). -/
def Memory.zero (m : Memory) (n : Nat) : Memory :=
  (List.range n).foldl (fun m a => Memory.write m a 0x00) m

/-! ### The environment -/

/-- The environment's next answer: the oldest one held, or, once those are used up, a free one (R215; log 3). -/
def nextAnswer (s : State) : Answer :=
  match s.script with
  | a :: _ => a
  | [] => Config.freeAnswer s.drawn

/-- The state once that answer has been taken. -/
def answerTaken (s : State) : State :=
  match s.script with
  | _ :: rest => { s with script := rest }
  | [] => { s with drawn := s.drawn + 1 }

/-! ### The wire -/

/-- The lines after one event: each `X=v` event also writes the line register (R221), `CFG` the bus
configuration (R35). -/
def Lines.drive (l : Lines) : WireEvent → Lines
  | .spiCfg rate mode => { l with bus := { has := true, rate := rate, mode := mode } }
  | .cs v => { l with cs := v }
  | .dc v => { l with dc := v }
  | .rst v => { l with rst := Reg.of (BitVec.ofBool v) }
  | .i2cWr _ _ | .tx _ | .delay _ => l

/-- Emit wire events, oldest first (R9). -/
def emit (es : List WireEvent) (s : State) : State :=
  { s with wire := s.wire ++ es, lines := es.foldl Lines.drive s.lines }

/-- Enter an answered call in the transport trace (R10). -/
def logCall (c : Call) (ok : Bool) (s : State) : State :=
  { s with calls := s.calls ++ [{ call := c, ok := ok }] }

/-! ### Exceptions and completion -/

/-- R250, R251: BusError at position `q`. Nothing is retried, repaired or undone. -/
def raiseBusError (q : Seq) (s : State) : State :=
  { s with
    status := .busError, errSeq := q,
    lc := if s.op = 0 then .uninitialized else s.lc,
    seq := .idle, busy := false }

/-- R257, R124: a request that ends without an abort overwrites `ERR_SEQ`. No rule says with what (R253 records no
value), so it takes a free one (log 18). -/
def overwriteErrSeq (s : State) : State :=
  { s with errSeq := Config.freeErrSeq s.ended, ended := s.ended + 1 }

/-- R253: Rejected. `BUSY`, `SEQ` and `LC` stay as they are. -/
def raiseRejected (s : State) : State := { overwriteErrSeq s with status := .rejected }

/-- R123: completion. This is also the return of an operation; there is no return instruction (R257). -/
def complete (s : State) : State :=
  { overwriteErrSeq s with
    lc := if s.op = 0 then .active else s.lc,
    status := .ok, seq := .idle, busy := false }

end Sys2Proof.Machine
end

