-- ==== Sys2Proof/Machine/Operands.lean ====
section
/-! DEFINITION. The numbers and bytes the engine computes: the geometry (R7), the mapper (R64), the init ROM
(R171), the variable bytes (R94) and the toggle bytes (R185). -/

namespace Sys2Proof.Machine

/-! ### Geometry -/

/-- Columns of the GRAM (R7). -/
def gramW : Nat := 132

/-- Rows of the GRAM (R7). -/
def gramH : Nat := 64

/-- `PAGES = cfg.height div 8` (R7). -/
def pages (c : Cfg) : Nat := c.height / 8

/-- `COL_OFFSET = (GRAM_W - cfg.width) div 2` (R7), as the seven bits `COLOFF` holds (R25). -/
def colOffset (c : Cfg) : BitVec 7 := BitVec.ofNat 7 ((gramW - c.width) / 2)

/-- `FB_SIZE = PAGES * cfg.width` (R60). -/
def fbSize (c : Cfg) : Nat := pages c * c.width

/-- The frame-buffer index of column `x` of page `p` (R60). -/
def fbIndex (c : Cfg) (p x : Nat) : Nat := p * c.width + x

/-- The key of the GRAM cell (page, column) (R61). -/
def gramKey (page col : Nat) : Nat := page * gramW + col

/-! ### The init ROM -/

/-- The 25 bytes of the init ROM under `cfg` (R171). -/
def romBytes (c : Cfg) : Vector Byte 25 :=
  #v[0xAE, 0x20, 0x00, 0x40, 0xA1,
     0xA8, BitVec.ofNat 8 (c.height - 1), 0xC8, 0xD3, 0x00,
     0xDA, 0x12, 0xD5, 0x80, 0xD9,
     if c.externalVcc then 0x22 else 0xF1, 0xDB, 0x30, 0x81, 0xFF,
     0xA4, 0xA6, 0x8D, if c.externalVcc then 0x10 else 0x14, 0xAF]

/-- `MemRead(ROM:i, 1)` (R171). -/
def romByte (c : Cfg) (i : Fin 25) : Byte := (romBytes c)[i]

/-! ### Bytes of a show -/

/-- `0xB0 | p` (R198). -/
def pageByte (p : Nat) : Byte := 0xB0 ||| BitVec.ofNat 8 p

/-- `0x00 | (COLOFF & 0x0F)` (R199). -/
def colLowByte (coloff : BitVec 7) : Byte := 0x00 ||| (coloff.zeroExtend 8 &&& 0x0F)

/-- `0x10 | (COLOFF >> 4)` (R200). -/
def colHighByte (coloff : BitVec 7) : Byte := 0x10 ||| (coloff.zeroExtend 8 >>> 4)

/-- `FB[a .. a + n]`, read in rising order (R201): a byte with no value faults (R32), as does an index
outside FB (R70). -/
def readFb (c : Cfg) (fb : Memory) : Nat → Nat → Except Fault (List Byte)
  | _, 0 => .ok []
  | a, n + 1 =>
    if a < fbSize c then
      match Memory.read fb a with
      | none => .error (.fbNoValue a)
      | some v =>
        match readFb c fb (a + 1) n with
        | .ok vs => .ok (v :: vs)
        | .error e => .error e
    else .error (.fbOutOfRange a)

/-! ### Bytes of a toggle -/

/-- `tog_byte(OP, arg, k)` (R185); none where the rule gives the operation no such byte. -/
def togByte (op : BitVec 3) (arg : Byte) (k : Fin 2) : Option Byte :=
  match op.toNat, k.val with
  | 2, 0 => some 0xAE
  | 3, 0 => some 0xAF
  | 4, 0 => some 0x81
  | 4, 1 => some arg
  | 5, 0 => some (0xA6 ||| (arg &&& 0x01))
  | _, _ => none

end Sys2Proof.Machine
end

