-- ==== Sys2Proof/Machine/Flags.lean ====
section
/-! DEFINITION. The status items, the only flags of the block (R28): their codes, the configuration warning, and
the read-out. -/

namespace Sys2Proof.Machine

/-- The code of `LC` (R22). -/
def lifecycleCode : Lifecycle → BitVec 2
  | .uninitialized => 0
  | .initializing => 1
  | .active => 2

/-- The code of `STATUS` (R29). -/
def statusCode : Status → BitVec 2
  | .ok => 0
  | .busError => 1
  | .rejected => 2

/-- R30, R254: the warning is set at the acceptance of `init` when the height is no multiple of 8, and stays. -/
def warnAfter (c : Cfg) (warn : Bool) : Bool := warn || decide (c.height % 8 ≠ 0)

/-- What the host reads (R124). -/
structure StatusView where
  busy    : Bool
  status  : BitVec 2
  cfgWarn : Bool
  lc      : BitVec 2
  errSeq  : Seq
  deriving DecidableEq, Repr

/-- The status read-out (R124): enabled in every state, and without side effect, so a function of the state. -/
def statusView (s : State) : StatusView :=
  { busy := s.busy, status := statusCode s.status, cfgWarn := s.cfgWarn, lc := lifecycleCode s.lc,
    errSeq := s.errSeq }

/-- The host's read of a frame-buffer byte (R126): enabled while `BUSY = 0`, without side effect. None while
BUSY; a fault on a byte that does not exist or has no value (R42). -/
def hostReadFb (s : State) (a : Nat) : Option (Except Fault Byte) :=
  if s.busy then none
  else if a < fbSize s.cfg then
    match Memory.read s.fb a with
    | some v => some (.ok v)
    | none => some (.error (.fbNoValue a))
  else some (.error (.fbOutOfRange a))

end Sys2Proof.Machine
end

