-- ==== Sys2Proof/Machine/Shadow.lean ====
section
/-! DEFINITION. The target shadow: what each command and each data byte does to it (R130, R139 to R160). -/

namespace Sys2Proof.Machine

/-! ### Commands -/

/-- R140: the low nibble of the column pointer; the other nibble is kept. -/
def setColLow (n : BitVec 4) (t : Target) : Target := { t with colLo := Reg.of n }

/-- R141: the high nibble of the column pointer; the other nibble is kept. -/
def setColHigh (n : BitVec 4) (t : Target) : Target := { t with colHi := Reg.of n }

/-- R151. `T.col` is kept. -/
def setPage (page : BitVec 3) (t : Target) : Target := { t with page := Reg.of page }

/-- R143. -/
def setStartLine (line : BitVec 6) (t : Target) : Target := { t with startLine := Reg.of line }

/-- R146. -/
def setSegRemap (r : BitVec 1) (t : Target) : Target := { t with segRemap := Reg.of r }

/-- R147: the display follows GRAM. -/
def followRam (t : Target) : Target := { t with entireOn := Reg.of 0 }

/-- R148. -/
def setInvert (v : BitVec 1) (t : Target) : Target := { t with invert := Reg.of v }

/-- R150. GRAM and the other registers are kept. -/
def setDisp (on : BitVec 1) (t : Target) : Target := { t with dispOn := Reg.of on }

/-- R152. -/
def setComScan (d : BitVec 1) (t : Target) : Target := { t with comScan := Reg.of d }

/-- `param(m, b)` (R139): the register of a two-byte command takes its parameter (R142, R144, R145, R149,
R153 to R157). -/
def setParam (m : TwoByte) (b : Byte) (t : Target) : Target :=
  match m with
  | .addrMode => { t with addrMode := Reg.of b }
  | .contrast => { t with contrast := Reg.of b }
  | .chargePump => { t with chargePump := Reg.of b }
  | .muxRatio => { t with muxRatio := Reg.of b }
  | .dispOffset => { t with dispOffset := Reg.of b }
  | .clkDiv => { t with clkDiv := Reg.of b }
  | .precharge => { t with precharge := Reg.of b }
  | .comPins => { t with comPins := Reg.of b }
  | .vcomDesel => { t with vcomDesel := Reg.of b }

/-- R139: the parameter has arrived, so nothing is pending any more. -/
def takeParam (m : TwoByte) (b : Byte) (t : Target) : Target := { setParam m b t with pending := none }

/-- R41: once `T.fault` is set the shadow makes no further claim, so it takes nothing in. -/
def unlessFault (f : Target → Target) (t : Target) : Target := if t.fault then t else f t

/-- What an instruction of the command stream does to the shadow. The host operations and the I2C control
bytes are no bytes of the command stream; `fetch` never yields one. -/
def shadowExec (i : Instr) (t : Target) : Target :=
  match i with
  | .cColLow n => unlessFault (setColLow n) t
  | .cColHigh n => unlessFault (setColHigh n) t
  | .cAddrMode p => unlessFault (takeParam .addrMode p) t
  | .cStartLine line => unlessFault (setStartLine line) t
  | .cContrast p => unlessFault (takeParam .contrast p) t
  | .cChargePump p => unlessFault (takeParam .chargePump p) t
  | .cSegRemap r => unlessFault (setSegRemap r) t
  | .cEntireOn => unlessFault followRam t
  | .cNormInv v => unlessFault (setInvert v) t
  | .cMuxRatio p => unlessFault (takeParam .muxRatio p) t
  | .cDisp on => unlessFault (setDisp on) t
  | .cPage page => unlessFault (setPage page) t
  | .cComScan d => unlessFault (setComScan d) t
  | .cDispOffset p => unlessFault (takeParam .dispOffset p) t
  | .cClkDiv p => unlessFault (takeParam .clkDiv p) t
  | .cPrecharge p => unlessFault (takeParam .precharge p) t
  | .cComPins p => unlessFault (takeParam .comPins p) t
  | .cVcomDesel p => unlessFault (takeParam .vcomDesel p) t
  | .hInit _ | .hShow _ | .hPowerOff _ | .hPowerOn _ | .hSetContrast _ | .hSetInvert _ | .hReserved _ _ => t
  | .i2cCtrlCmd _ | .i2cCtrlData _ => t

/-! ### The command stream -/

/-- What one byte of the command stream completes (R139). -/
inductive Fetched where
  /-- `T.fault` is set: no further claim. -/
  | skip
  /-- A whole instruction. -/
  | run (i : Instr)
  /-- The first byte of a two-byte command. -/
  | await (m : TwoByte)
  /-- A byte outside the map. -/
  | unmapped
  deriving DecidableEq, Repr

/-- R139: a byte that arrives while a parameter is pending is that parameter, whatever its value. -/
def fetch (t : Target) (b : Byte) : Fetched :=
  if t.fault then .skip
  else
    match t.pending with
    | some m => .run (withParam m b)
    | none =>
      match classify b with
      | .one i => .run i
      | .two m => .await m
      | .unmapped => .unmapped

/-- `T.recv_cmd(b)` (R130, R139). -/
def recvCmd (b : Byte) (t : Target) : Target :=
  match fetch t b with
  | .skip => t
  | .run i => shadowExec i t
  | .await m => { t with pending := some m }
  | .unmapped => { t with fault := true }

/-! ### Data bytes -/

/-- `T.col`, which has a value when both its nibbles have one (R38, R140). -/
def colValue (t : Target) : Option Byte :=
  if t.colHi.has && t.colLo.has then some (t.colHi.val ++ t.colLo.val) else none

/-- `T.page`, where it has a value (R38). -/
def pageValue (t : Target) : Option (BitVec 3) := if t.page.has then some t.page.val else none

/-- `T.col <- c`, both nibbles. -/
def setCol (c : Byte) (t : Target) : Target :=
  { t with colHi := Reg.of (c.extractLsb' 4 4), colLo := Reg.of (c.extractLsb' 0 4) }

/-- `T.recv_data(v)` (R160). -/
def recvData (v : Byte) (t : Target) : Target :=
  if t.fault then t
  else if t.pending ≠ none then { t with fault := true }
  else
    match pageValue t, colValue t with
    | some page, some col =>
      if 131 < col.toNat then { t with fault := true }
      else setCol (col + 1) { t with gram := Memory.write t.gram (gramKey page.toNat col.toNat) v }
    | _, _ => { t with fault := true }

/-- A sequence of data bytes, in order. -/
def recvDatas (bs : List Byte) (t : Target) : Target := bs.foldl (fun t v => recvData v t) t

/-! ### Transactions -/

/-- What a completed call delivers to the two entry points (R217, R223, R228). -/
def recvCall (c : Call) (t : Target) : Target :=
  match c with
  | .wc b => recvCmd b t
  | .wd bs => recvDatas bs t

/-- What a failed call delivers (R252): the command byte or not, or the first `k` data bytes. -/
def recvPart (c : Call) (k : Nat) (t : Target) : Target :=
  match c with
  | .wc b => if k = 0 then t else recvCmd b t
  | .wd bs => recvDatas (bs.take k) t

end Sys2Proof.Machine
end

