-- ==== Sys2Proof/Machine/Commands.lean ====
section
/-! DEFINITION. The meanings of the target's commands (41_command_set.md). None of them writes anything but the
shadow, and none can fault (R130). -/

namespace Sys2Proof.Machine

/-- Let the shadow take an instruction in, unless `T.fault` is set (R139). -/
def onTarget (f : Target → Target) (s : State) : Result := .next { s with t := unlessFault f s.t }

/-- C_COL_LOW (R140). -/
def execCColLow (n : BitVec 4) (s : State) : Result := onTarget (setColLow n) s

/-- C_COL_HIGH (R141). -/
def execCColHigh (n : BitVec 4) (s : State) : Result := onTarget (setColHigh n) s

/-- C_ADDR_MODE with its parameter (R142). No other rule reads the register. -/
def execCAddrMode (p : Byte) (s : State) : Result := onTarget (takeParam .addrMode p) s

/-- C_START_LINE (R143). -/
def execCStartLine (line : BitVec 6) (s : State) : Result := onTarget (setStartLine line) s

/-- C_CONTRAST with its parameter (R144). -/
def execCContrast (p : Byte) (s : State) : Result := onTarget (takeParam .contrast p) s

/-- C_CHARGE_PUMP with its parameter (R145). -/
def execCChargePump (p : Byte) (s : State) : Result := onTarget (takeParam .chargePump p) s

/-- C_SEG_REMAP (R146). -/
def execCSegRemap (r : BitVec 1) (s : State) : Result := onTarget (setSegRemap r) s

/-- C_ENTIRE_ON (R147). -/
def execCEntireOn (s : State) : Result := onTarget followRam s

/-- C_NORM_INV (R148). -/
def execCNormInv (v : BitVec 1) (s : State) : Result := onTarget (setInvert v) s

/-- C_MUX_RATIO with its parameter (R149). -/
def execCMuxRatio (p : Byte) (s : State) : Result := onTarget (takeParam .muxRatio p) s

/-- C_DISP (R150). -/
def execCDisp (on : BitVec 1) (s : State) : Result := onTarget (setDisp on) s

/-- C_PAGE (R151). -/
def execCPage (page : BitVec 3) (s : State) : Result := onTarget (setPage page) s

/-- C_COM_SCAN (R152). -/
def execCComScan (d : BitVec 1) (s : State) : Result := onTarget (setComScan d) s

/-- C_DISP_OFFSET with its parameter (R153). -/
def execCDispOffset (p : Byte) (s : State) : Result := onTarget (takeParam .dispOffset p) s

/-- C_CLK_DIV with its parameter (R154). -/
def execCClkDiv (p : Byte) (s : State) : Result := onTarget (takeParam .clkDiv p) s

/-- C_PRECHARGE with its parameter (R155). -/
def execCPrecharge (p : Byte) (s : State) : Result := onTarget (takeParam .precharge p) s

/-- C_COM_PINS with its parameter (R156). -/
def execCComPins (p : Byte) (s : State) : Result := onTarget (takeParam .comPins p) s

/-- C_VCOM_DESEL with its parameter (R157). -/
def execCVcomDesel (p : Byte) (s : State) : Result := onTarget (takeParam .vcomDesel p) s

end Sys2Proof.Machine
end

