-- ==== Sys2Proof/Machine/Adapter.lean ====
section
/-! DEFINITION. The transport adapters (45_transport_adapters.md): wire frames, delivery to the shadow, the SPI
reset pulse, and the meanings of the two I2C control bytes. -/

namespace Sys2Proof.Machine

/-! ### I2C control bytes -/

/-- I2C_CTRL_CMD (R101, R217): the framing consumes the control byte and hands the one byte that follows to
the command stream. -/
def execI2cCtrlCmd (b : Byte) (s : State) : Result := .next { s with t := recvCmd b s.t }

/-- I2C_CTRL_DATA (R101, R217): the framing consumes the control byte and hands the bytes that follow to the
shadow as data, in order. -/
def execI2cCtrlData (bs : List Byte) (s : State) : Result := .next { s with t := recvDatas bs s.t }

/-! ### Frames -/

/-- The bytes of a call. -/
def Call.bytes : Call → List Byte
  | .wc b => [b]
  | .wd bs => bs

/-- The level `DC` has during a call: low for a command write, high for a data write (R221, R222). -/
def Call.isData : Call → Bool
  | .wc _ => false
  | .wd _ => true

/-- The payload of a call on I2C (R216). -/
def i2cPayload : Call → List Byte
  | .wc b => [0x00, b]
  | .wd bs => 0x40 :: bs

/-- An SPI transfer of the first `sent` bytes of a call (R102, R221, R222, R226). -/
def spiFrame (rate : Nat) (c : Call) (sent : Nat) : List WireEvent :=
  [.spiCfg rate 0, .cs true, .dc c.isData, .cs false] ++ (c.bytes.take sent).map .tx ++ [.cs true]

/-- The wire events of a call (R216, R221, R222); `sent` counts on SPI only, since an I2C transaction is one
event whatever its answer. -/
def wireFrame (cfg : Cfg) (c : Call) (sent : Nat) : List WireEvent :=
  match cfg.transport with
  | .i2c => [.i2cWr cfg.i2cAddr (i2cPayload c)]
  | .spi => spiFrame cfg.spiRate c sent

/-! ### Delivery -/

/-- What the target takes from an I2C payload (R217). -/
def hearPayload (payload : List Byte) (t : Target) : Target :=
  match decodeFrame payload with
  | .ok (.i2cCtrlCmd b) => recvCmd b t
  | .ok (.i2cCtrlData bs) => recvDatas bs t
  | _ => t

/-- What the target takes from one wire event, the lines being as before it: a transaction to its address
(R217, R219), or a byte sent while selected, `DC` telling which entry point takes it (R223). -/
def hearEvent (addr : BitVec 7) (l : Lines) (e : WireEvent) (t : Target) : Target :=
  match e with
  | .i2cWr a payload => if a = addr then hearPayload payload t else t
  | .tx b => if l.cs then t else if l.dc then recvData b t else recvCmd b t
  | _ => t

/-- What the target takes from a run of wire events. -/
def hear (addr : BitVec 7) : List WireEvent → Lines → Target → Target
  | [], _, t => t
  | e :: es, l, t => hear addr es (l.drive e) (hearEvent addr l e t)

/-- A transaction answered `ok`: its whole frame goes out and the target hears it. -/
def transferOk (c : Call) (s : State) : State :=
  let es := wireFrame s.cfg c c.bytes.length
  logCall c true (emit es { s with t := hear s.cfg.i2cAddr es s.lines s.t })

/-- A transaction answered `fail` (R226, R252): `sent` bytes went out on SPI, `received` bytes arrived. -/
def transferFail (c : Call) (sent received : Nat) (s : State) : State :=
  logCall c false (emit (wireFrame s.cfg c sent) { s with t := recvPart c received s.t })

/-! ### The SPI reset pulse -/

/-- One phase of the pulse (R225). -/
def pulse (s : State) : State :=
  match s.tr with
  | .unreset => { emit [.rst true] s with tr := .pulseA }
  | .pulseA => { emit [.delay s.cfg.tRstA, .rst false] s with tr := .pulseB }
  | .pulseB => { emit [.delay s.cfg.tRstB, .rst true] s with tr := .pulseC }
  | .pulseC => { emit [.delay s.cfg.tRstC] s with tr := .ready }
  | .ready => s

end Sys2Proof.Machine
end

