-- ==== Sys2Proof/Machine/Sequencer.lean ====
section
/-! DEFINITION. The sequencer: the entry of each operation, the call and the successor of each position, and one
step of the engine (R122, R172 to R174, R185, R196 to R201). -/

namespace Sys2Proof.Machine

/-! ### Entries -/

/-- R196. -/
def showEntry (s : State) : State :=
  let s := { s with coloff := colOffset s.cfg }
  if pages s.cfg = 0 then complete s else { s with seq := .pageSel 0 }

/-- R170. -/
def initEntry (s : State) : State :=
  { s with lc := .initializing, cfgWarn := warnAfter s.cfg s.cfgWarn, seq := .rom 0 }

/-- R121: a toggle starts at its first byte. -/
def togEntry (s : State) : State := { s with seq := .tog 0 }

/-- R174: zero the frame buffer, then enter the show. -/
def clearFb (s : State) : State := showEntry { s with fb := Memory.zero s.fb (fbSize s.cfg) }

/-! ### Positions -/

/-- The one transport call of a position (R122, R173, R185, R198 to R201). -/
def callAt (s : State) : Except Fault Call :=
  match s.seq with
  | .rom i => .ok (.wc (romByte s.cfg i))
  | .pageSel p => .ok (.wc (pageByte p))
  | .colLow _ => .ok (.wc (colLowByte s.coloff))
  | .colHigh _ => .ok (.wc (colHighByte s.coloff))
  | .data p =>
    match readFb s.cfg s.fb (fbIndex s.cfg p 0) s.cfg.width with
    | .ok bs => .ok (.wd bs)
    | .error e => .error e
  | .tog k =>
    match togByte s.op s.arg k with
    | some b => .ok (.wc b)
    | none => .error (.noSuchPosition s.seq)
  | .idle => .error (.noSuchPosition .idle)
  | .clear => .error (.noSuchPosition .clear)

/-- The successor of a position that makes a call (R172, R185, R197); `Idle` ends the operation. The other
two positions make no call: `Idle` has no step, and `Clear` enters the show itself (R174). -/
def succ (cfg : Cfg) (op : BitVec 3) (q : Seq) : Seq :=
  match q with
  | .rom i => if h : i.val + 1 < 25 then .rom ⟨i.val + 1, h⟩ else .clear
  | .pageSel p => .colLow p
  | .colLow p => .colHigh p
  | .colHigh p => .data p
  | .data p => if p + 1 < pages cfg then .pageSel (p + 1) else .idle
  | .tog k => if k = 0 ∧ op = 4 then .tog 1 else .idle
  | .idle => .idle
  | .clear => .idle

/-- R122, the `ok` branch: complete at the end of the operation, else go to the successor. -/
def advance (s : State) : State :=
  match succ s.cfg s.op s.seq with
  | .idle => complete s
  | q => { s with seq := q }

/-- A transport call in progress (R122): nothing happens while it is not answered (U13); `ok` delivers and
advances; `fail` delivers a part and raises BusError. -/
def answered (c : Call) (a : Answer) (s : State) : State :=
  match a with
  | .wait => s
  | .ok => advance (transferOk c s)
  | .fail sent received => raiseBusError s.seq (transferFail c sent received s)

/-- One step of the engine while BUSY. -/
def engineStep (s : State) : Result :=
  match s.seq with
  | .clear => .next (clearFb s)
  | _ =>
    match callAt s with
    | .error e => .fault e
    | .ok c => .next (answered c (nextAnswer s) (answerTaken s))

end Sys2Proof.Machine
end

