-- ==== Sys2Proof/Machine/HostOps.lean ====
section
/-! DEFINITION. The meanings of the host operations: the dispatch step (R121). What follows acceptance is the
sequencer's. -/

namespace Sys2Proof.Machine

/-- A request is accepted or rejected only when `BUSY = 0` and `TR = T_Ready`; else it is held and nothing
happens (R121, R125). An instance with an illegal cfg has no behaviour (R20). -/
def offer (verdict : State → State) (s : State) : Result :=
  if s.cfg.legal then
    if s.busy = false ∧ s.tr = .ready then .next (verdict s) else .next s
  else .refused .illegalConfig

/-- R121: `BUSY <- 1 ; OP <- w.op ; ARG <- w.arg`. -/
def latch (op : BitVec 3) (arg : Byte) (s : State) : State := { s with busy := true, op := op, arg := arg }

/-- R121: every operation but `init` is accepted only in `Active`, else it is Rejected (R253). -/
def whenActive (entry : State → State) (s : State) : State :=
  if s.lc = .active then entry s else raiseRejected s

/-- H_INIT (R170): accepted in every lifecycle state. -/
def execHInit (arg : Byte) (s : State) : Result := offer (fun s => initEntry (latch 0 arg s)) s

/-- H_SHOW (R195, R196). -/
def execHShow (arg : Byte) (s : State) : Result := offer (whenActive fun s => showEntry (latch 1 arg s)) s

/-- H_POWER_OFF (R186). -/
def execHPowerOff (arg : Byte) (s : State) : Result := offer (whenActive fun s => togEntry (latch 2 arg s)) s

/-- H_POWER_ON (R187). -/
def execHPowerOn (arg : Byte) (s : State) : Result := offer (whenActive fun s => togEntry (latch 3 arg s)) s

/-- H_SET_CONTRAST (R188). -/
def execHSetContrast (value : Byte) (s : State) : Result :=
  offer (whenActive fun s => togEntry (latch 4 value s)) s

/-- H_SET_INVERT (R189). -/
def execHSetInvert (arg : Byte) (s : State) : Result := offer (whenActive fun s => togEntry (latch 5 arg s)) s

/-- H_RESERVED, operation codes 6 and 7 (R253): Rejected in every lifecycle state. -/
def execHReserved (_code : BitVec 1) (_arg : Byte) (s : State) : Result := offer raiseRejected s

/-- The host's write of one frame-buffer byte while `BUSY = 0` (R126); no such move outside FB (R32). -/
def hostWrite (a : Nat) (v : Byte) (s : State) : Result :=
  if a < fbSize s.cfg then .next { s with fb := Memory.write s.fb a v } else .fault (.fbOutOfRange a)

end Sys2Proof.Machine
end

