-- ==== Sys2Proof/Machine/Dispatch.lean ====
section
/-! DEFINITION. One arm per instruction. -/

namespace Sys2Proof.Machine

def exec (i : Instr) (s : State) : Host.Outcome State Fault Refusal :=
  match i with
  | .hInit arg => Sys2Proof.Machine.execHInit arg s
  | .hShow arg => Sys2Proof.Machine.execHShow arg s
  | .hPowerOff arg => Sys2Proof.Machine.execHPowerOff arg s
  | .hPowerOn arg => Sys2Proof.Machine.execHPowerOn arg s
  | .hSetContrast value => Sys2Proof.Machine.execHSetContrast value s
  | .hSetInvert arg => Sys2Proof.Machine.execHSetInvert arg s
  | .hReserved code arg => Sys2Proof.Machine.execHReserved code arg s
  | .cColLow n => Sys2Proof.Machine.execCColLow n s
  | .cColHigh n => Sys2Proof.Machine.execCColHigh n s
  | .cAddrMode param => Sys2Proof.Machine.execCAddrMode param s
  | .cStartLine line => Sys2Proof.Machine.execCStartLine line s
  | .cContrast param => Sys2Proof.Machine.execCContrast param s
  | .cChargePump param => Sys2Proof.Machine.execCChargePump param s
  | .cSegRemap r => Sys2Proof.Machine.execCSegRemap r s
  | .cEntireOn => Sys2Proof.Machine.execCEntireOn s
  | .cNormInv v => Sys2Proof.Machine.execCNormInv v s
  | .cMuxRatio param => Sys2Proof.Machine.execCMuxRatio param s
  | .cDisp on => Sys2Proof.Machine.execCDisp on s
  | .cPage page => Sys2Proof.Machine.execCPage page s
  | .cComScan d => Sys2Proof.Machine.execCComScan d s
  | .cDispOffset param => Sys2Proof.Machine.execCDispOffset param s
  | .cClkDiv param => Sys2Proof.Machine.execCClkDiv param s
  | .cPrecharge param => Sys2Proof.Machine.execCPrecharge param s
  | .cComPins param => Sys2Proof.Machine.execCComPins param s
  | .cVcomDesel param => Sys2Proof.Machine.execCVcomDesel param s
  | .i2cCtrlCmd b => Sys2Proof.Machine.execI2cCtrlCmd b s
  | .i2cCtrlData bs => Sys2Proof.Machine.execI2cCtrlData bs s

end Sys2Proof.Machine
end

