-- ==== Sys2Proof/Machine/Fetch.lean ====
section
/-! DEFINITION. Where instructions come from: the host's request port (R120) and the target's receiving end
(R130), and how an instruction is placed at one of them (log 2, log 5). -/

namespace Sys2Proof.Machine

/-- Something reaches the target from outside (log 5): a payload is decoded by its control byte (R217), a
byte of the command stream by R139, a data byte is stored by R160. -/
def arrive (x : Arrival) (s : State) : Result :=
  match x with
  | .payload bs =>
    match decodeFrame bs with
    | .ok i => exec i s
    | .error _ => .refused (.unknownFrame bs)
  | .cmd b =>
    match fetch s.t b with
    | .skip => .next s
    | .run i => exec i s
    | .await m => .next { s with t := { s.t with pending := some m } }
    | .unmapped => .next { s with t := { s.t with fault := true } }
  | .data v => .next { s with t := recvData v s.t }

/-- What moves when neither the engine nor the host does: the SPI reset pulse, which runs by itself (R225), or
what reaches the target from outside (log 5). -/
def others (s : State) : Result :=
  if s.cfg.transport = .spi ∧ s.tr ≠ .ready then .next (pulse s)
  else
    match s.tin with
    | x :: rest => arrive x { s with tin := rest }
    | [] => .next s

/-- The next move of the host while `BUSY = 0` (R126). A request is held until `TR = T_Ready` (R125); a write of
the frame buffer is not. Where the host makes no move, the others do. -/
def hostStep (s : State) : Result :=
  match s.host with
  | [] => others s
  | .pass :: rest => others { s with host := rest }
  | .req w :: rest => if s.tr = .ready then exec (decodeHost w) { s with host := rest } else others s
  | .fbWrite a v :: rest => hostWrite a v { s with host := rest }

/-- Place an image where the next step fetches, the engine being at rest and the adapter past its reset pulse:
a host word at the request port; with the host making no move, an I2C payload at the target, or bytes of the
command stream at a target that is in step and without fault, the first of two bytes being held in
`T.pending`, as the stream leaves it (R139). -/
def place (s : State) (image : Image) : State :=
  let s := { s with tr := .ready, busy := false }
  let inStep (p : Option TwoByte) : Target := { s.t with fault := false, pending := p }
  match image with
  | .host w => { s with host := .req w :: s.host }
  | .frame bs => { s with host := .pass :: s.host, tin := .payload bs :: s.tin }
  | .command [b] => { s with host := .pass :: s.host, t := inStep none, tin := .cmd b :: s.tin }
  | .command (b :: p :: _) =>
    match classify b with
    | .two m => { s with host := .pass :: s.host, t := inStep (some m), tin := .cmd p :: s.tin }
    | _ => { s with host := .pass :: s.host, t := inStep none, tin := .cmd b :: s.tin }
  | .command [] => s

end Sys2Proof.Machine
end

