-- ==== Sys2Proof/Machine/Step.lean ====
section
/-! DEFINITION. One step of the machine: which agent moves (log 6), and a table word placed at the fetch. -/

namespace Sys2Proof.Machine

/-- One step. An instance with an illegal cfg has none (R20). While BUSY the engine moves (R122), once the SPI
adapter is ready (R225; it always is then, R121). Else the host does (R126), and where it makes no move the
reset pulse, or what reaches the target from outside (log 5). -/
def step (s : State) : Host.Outcome State Fault Refusal :=
  if s.cfg.legal then
    if s.busy then
      if s.cfg.transport = .spi ∧ s.tr ≠ .ready then .next (pulse s) else engineStep s
    else hostStep s
  else .refused .illegalConfig

/-- `s` with the instruction of a table word placed where `step` fetches next; `s` where the word is none. -/
def State.withFetchWord (s : State) (nbits w : Nat) : State :=
  match tableImage nbits w with
  | some image => place s image
  | none => s

end Sys2Proof.Machine
end

