-- ==== Sys2Proof/Safety.lean ====
section
/-! DEFINITION. The terms claims are stated in: rest and going wrong (R128), the invariants of the machine, the
discipline of the wire (R224), and the transport trace of a frame (R204). -/

namespace Sys2Proof.Machine

/-! ### Rest -/

/-- R128: a run is at rest. -/
def atRest (s : State) : Bool := !s.busy && decide (s.tr = .ready)

/-- R128: what has gone wrong at rest, unless the claim allowed for it. -/
def goneWrong (s : State) : Bool :=
  atRest s && (decide (s.status = .busError) || decide (s.status = .rejected) || s.t.fault)

/-- R121: a request is accepted or rejected now. -/
abbrev mayDispatch (s : State) : Prop := s.cfg.legal = true ∧ s.busy = false ∧ s.tr = .ready

/-- What reaches the target from outside may be taken now: the engine is at rest and no reset pulse runs. -/
abbrev mayArrive (s : State) : Prop :=
  s.cfg.legal = true ∧ s.busy = false ∧ (s.cfg.transport = .spi → s.tr = .ready)

/-- The host makes no move now, and `held` is what it has left: it passes, it has none, or its request is held
until the adapter is ready (R125). -/
abbrev hostWaits (s : State) (held : List HostMove) : Prop :=
  s.host = .pass :: held ∨
    (s.host = held ∧ (held = [] ∨ (s.tr ≠ .ready ∧ ∃ w rest, held = .req w :: rest)))

/-- A transport call is made now (R122): the engine is BUSY and the adapter ready. -/
abbrev mayCall (s : State) : Prop := s.cfg.legal = true ∧ s.busy = true ∧ s.tr = .ready

/-- `k` steps of the machine, ending at the first stop. -/
def run : Nat → State → Result
  | 0, s => .next s
  | k + 1, s =>
    match step s with
    | .next s' => run k s'
    | .fault f => .fault f
    | .refused r => .refused r

/-! ### The positions of an operation -/

/-- The page of a show position (R26). -/
def pageOf : Seq → Option Nat
  | .pageSel p | .colLow p | .colHigh p | .data p => some p
  | .idle | .rom _ | .clear | .tog _ => none

/-- The positions an operation passes through (R27, R172, R185, R197). -/
def positionFits (c : Cfg) (op : BitVec 3) : Seq → Bool
  | .idle => false
  | .rom _ | .clear => op = 0
  | .pageSel p | .colLow p | .colHigh p | .data p => (op = 0 || op = 1) && decide (p < pages c)
  | .tog k => op = 4 || ((op = 2 || op = 3 || op = 5) && k = 0)

/-- How many answered steps an operation still takes from a position (R128). -/
def stepsLeft (c : Cfg) (op : BitVec 3) : Seq → Nat
  | .idle => 0
  | .rom i => 26 - i.val + 4 * pages c
  | .clear => 1 + 4 * pages c
  | .pageSel p => 4 * (pages c - p)
  | .colLow p => 4 * (pages c - p) - 1
  | .colHigh p => 4 * (pages c - p) - 2
  | .data p => 4 * (pages c - p) - 3
  | .tog k => if k = 0 ∧ op = 4 then 2 else 1

/-- Every byte of the frame buffer has a value (R32). -/
def fbFull (c : Cfg) (fb : Memory) : Prop := ∀ a, a < fbSize c → ∃ v, Memory.read fb a = some v

/-! ### The invariant -/

/-- What holds in every state a run of a legal instance reaches. -/
structure Inv (s : State) : Prop where
  /-- R20. -/
  cfg_legal : s.cfg.legal = true
  fb_wf : s.fb.wf
  /-- R32, R70: the frame buffer has no byte outside `FB_SIZE`. -/
  fb_inside : ∀ x ∈ s.fb, x.1 < fbSize s.cfg
  gram_wf : s.t.gram.wf
  /-- R37, R61: the GRAM has 8 pages of 132 columns. -/
  gram_inside : ∀ x ∈ s.t.gram, x.1 < 8 * gramW
  /-- R27: `SEQ = Idle` exactly when `BUSY = 0`. -/
  idle_iff : s.seq = .idle ↔ s.busy = false
  /-- R27: while BUSY the position is one of the operation's. -/
  position : s.busy = true → positionFits s.cfg s.op s.seq = true
  /-- R262: `Initializing` exactly while `init` runs. -/
  initializing_iff : s.lc = .initializing ↔ s.busy = true ∧ s.op = 0
  /-- R121, R262: nothing but `init` runs outside `Active`. -/
  busy_active : s.busy = true → s.op ≠ 0 → s.lc = .active
  /-- R25: during a show `COLOFF` holds the column offset. -/
  coloff : pageOf s.seq ≠ none → s.coloff = colOffset s.cfg
  /-- R32: `Active`, and a show, are reached only through `Clear`. -/
  full : s.lc = .active ∨ pageOf s.seq ≠ none → fbFull s.cfg s.fb
  /-- R33: on I2C the adapter is ready always. -/
  i2c_ready : s.cfg.transport = .i2c → s.tr = .ready
  /-- R121, R286: nothing runs before the adapter is ready. -/
  busy_ready : s.busy = true → s.tr = .ready
  /-- R30. -/
  warn : s.cfgWarn = true → s.cfg.height % 8 ≠ 0
  /-- R221: the lines are what the wire events have made of them. -/
  lines_follow : s.lines = s.wire.foldl Lines.drive Lines.reset
  /-- R224: chip select is never left asserted. -/
  cs_high : s.lines.cs = true

/-! ### The wire -/

/-- R216, R217, R219, R224: what an event on the wire must be, the lines being as before it: bytes only while
selected, `DC` moved only while not selected, and an I2C transaction to the target's address with a control
byte and what it announces. -/
def eventOk (addr : BitVec 7) (l : Lines) : WireEvent → Bool
  | .tx _ => !l.cs
  | .dc _ => l.cs
  | .i2cWr a (c :: rest) => a = addr && ((c = 0x00 && rest.length = 1) || (c = 0x40 && rest.length ≥ 1))
  | .i2cWr _ [] => false
  | .spiCfg _ _ | .cs _ | .rst _ | .delay _ => true

/-- Every event of a run of events is as it must be. -/
def wireOk (addr : BitVec 7) : Lines → List WireEvent → Bool
  | _, [] => true
  | l, e :: es => eventOk addr l e && wireOk addr (l.drive e) es

/-- The bytes a target with these lines takes from a run of SPI events, each with the level of `DC` (R223). -/
def selectedBytes : Lines → List WireEvent → List (Bool × Byte)
  | _, [] => []
  | l, .tx b :: es => if l.cs then selectedBytes l es else (l.dc, b) :: selectedBytes l es
  | l, .spiCfg rate mode :: es => selectedBytes (l.drive (.spiCfg rate mode)) es
  | l, .cs v :: es => selectedBytes (l.drive (.cs v)) es
  | l, .dc v :: es => selectedBytes (l.drive (.dc v)) es
  | l, .rst v :: es => selectedBytes (l.drive (.rst v)) es
  | l, .i2cWr a p :: es => selectedBytes (l.drive (.i2cWr a p)) es
  | l, .delay t :: es => selectedBytes (l.drive (.delay t)) es

/-- Whether an event sends a byte on SPI. -/
def isTx : WireEvent → Bool
  | .tx _ => true
  | .i2cWr _ _ | .spiCfg _ _ | .cs _ | .dc _ | .rst _ | .delay _ => false

/-- The SPI lines after a transfer, or the lines as they were on I2C (R102, R216). -/
def linesAfter (c : Cfg) (call : Call) (l : Lines) : Lines :=
  match c.transport with
  | .i2c => l
  | .spi => { cs := true, dc := call.isData, rst := l.rst, bus := { has := true, rate := c.spiRate, mode := 0 } }

/-! ### The command byte map -/

/-- The rows of R93, each a match and a mask. -/
def commandRows : List (Byte × Byte) :=
  [(0x00, 0xF0), (0x10, 0xF0), (0x20, 0xFF), (0x40, 0xC0), (0x81, 0xFF), (0x8D, 0xFF), (0xA0, 0xFE),
   (0xA4, 0xFF), (0xA6, 0xFE), (0xA8, 0xFF), (0xAE, 0xFE), (0xB0, 0xF8), (0xC0, 0xF7), (0xD3, 0xFF),
   (0xD5, 0xFF), (0xD9, 0xFF), (0xDA, 0xFF), (0xDB, 0xFF)]

/-- A byte selects a row (R93). -/
def selects (b : Byte) (row : Byte × Byte) : Bool := b &&& row.2 = row.1

/-- The 13 ranges outside the map (R99). -/
def outsideMap (b : Byte) : Bool :=
  [((0x21 : Byte), (0x3F : Byte)), (0x80, 0x80), (0x82, 0x8C), (0x8E, 0x9F), (0xA2, 0xA3), (0xA5, 0xA5),
   (0xA9, 0xAD), (0xB8, 0xBF), (0xC1, 0xC7), (0xC9, 0xD2), (0xD4, 0xD4), (0xD6, 0xD8), (0xDC, 0xFF)].any
    fun r => r.1 ≤ b && b ≤ r.2

/-- The instructions of a command stream of at most `n` instructions, or why it is none (R95). -/
def decodeStream : Nat → List Byte → Except DecodeError (List Instr)
  | _, [] => .ok []
  | 0, _ :: _ => .error .trailingBytes
  | n + 1, bs =>
    match decodeCommand bs with
    | .error e => .error e
    | .ok (i, rest) =>
      match decodeStream n rest with
      | .ok is => .ok (i :: is)
      | .error e => .error e

/-! ### The frame -/

/-- The slice `FB[p*width .. (p+1)*width]` of a frame buffer whose bytes all have values (R201). -/
def pageSlice (c : Cfg) (fb : Memory) (p : Nat) : List Byte :=
  (List.range c.width).map fun x => (Memory.read fb (fbIndex c p x)).getD 0

/-- `PAGEWR p` (R103): the four transactions of a page. -/
def pageCalls (c : Cfg) (fb : Memory) (p : Nat) : List Call :=
  [.wc (0xB0 ||| BitVec.ofNat 8 p),
   .wc (BitVec.ofNat 8 ((132 - c.width) / 2 % 16)),
   .wc (BitVec.ofNat 8 (16 + (132 - c.width) / 2 / 16)),
   .wd (pageSlice c fb p)]

/-- `FRAME` (R204): the transport trace of a show. -/
def frameCalls (c : Cfg) (fb : Memory) : List Call := (List.range (pages c)).flatMap (pageCalls c fb)

/-- A call answered `ok`. -/
def okCall (c : Call) : CallRecord := { call := c, ok := true }

/-! ### The target while the engine drives it -/

/-- The two-byte command whose parameter the ROM holds at an index (R171); none at the index of a command
byte. -/
def romPending (i : Fin 25) : Option TwoByte :=
  match i.val with
  | 2 => some .addrMode
  | 6 => some .muxRatio
  | 9 => some .dispOffset
  | 11 => some .comPins
  | 13 => some .clkDiv
  | 15 => some .precharge
  | 17 => some .vcomDesel
  | 19 => some .contrast
  | 23 => some .chargePump
  | _ => none

/-- What the shadow holds at each position, when nothing but the engine drives it (R160, R287): in step with the
ROM from its second byte on, and addressed before each data write. -/
def shadowAt (coloff : BitVec 7) (t : Target) : Seq → Prop
  | .rom i => i ≠ 0 → t.pending = romPending i
  | .clear => t.pending = none
  | .pageSel _ => t.pending ≠ none → t.page.has = true
  | .colLow _ => t.pending = none ∧ t.page.has = true
  | .colHigh _ => t.pending = none ∧ t.page.has = true ∧ t.colLo = Reg.of (coloff.extractLsb' 0 4)
  | .data _ => t.pending = none ∧ t.page.has = true ∧
      t.colLo = Reg.of (coloff.extractLsb' 0 4) ∧ t.colHi = Reg.of ((coloff.zeroExtend 8).extractLsb' 4 4)
  | .idle | .tog _ => True

/-- The invariant of the shadow when nothing but the engine drives it: either it has taken a byte outside the
map (R287), or it is where the sequencer expects it, its pointers having values once a frame was sent. -/
structure TargetInv (s : State) : Prop where
  base : Inv s
  in_step : s.t.fault = false → shadowAt s.coloff s.t s.seq
  addressed : s.t.fault = false → s.lc = .active → 0 < pages s.cfg → s.t.page.has = true

/-! ### Comparing runs -/

/-- A result with the shadow of its state replaced: what is left when the shadow is not looked at. -/
def forgetTarget (t : Target) : Result → Result
  | .next s => .next { s with t := t }
  | .fault f => .fault f
  | .refused r => .refused r

end Sys2Proof.Machine
end

