-- ==== Sys2Proof/Certificates/Slice0/Obligations.lean ====
section
/-! DEFINITION. The statements for the provers. -/

open Sys2Proof Sys2Proof.Machine

/-! ### A step runs the decoded instruction -/

/-- A request at the port of an engine at rest is decoded and executed, and leaves the port (R121, R126). -/
def Obligations.StepRunsTheRequestedOperation : Prop :=
  ∀ (s : State) (w : HostWord) (rest : List HostMove) (i : Instr),
    mayDispatch s → s.host = .req w :: rest → decode (.host w) = .ok i →
    step s = exec i { s with host := rest }

/-- While the host makes no move (log 6), bytes that reach the target and decode to an instruction are executed, and
leave the port: an I2C payload; a one-byte command; a two-byte command whose first byte the shadow holds (R139,
R217). The port is the model's (log 5). -/
def Obligations.StepRunsTheArrivedInstruction : Prop :=
  ∀ (s : State) (rest : List Arrival) (held : List HostMove), mayArrive s → hostWaits s held →
    (∀ payload i, s.tin = .payload payload :: rest → decode (.frame payload) = .ok i →
      step s = exec i { s with tin := rest, host := held }) ∧
    (∀ b i, s.tin = .cmd b :: rest → s.t.fault = false → s.t.pending = none →
      decode (.command [b]) = .ok i → step s = exec i { s with tin := rest, host := held }) ∧
    (∀ m b i, s.tin = .cmd b :: rest → s.t.fault = false → s.t.pending = some m →
      decode (.command [commandByte m, b]) = .ok i → step s = exec i { s with tin := rest, host := held })

/-! ### Encodings -/

/-- Words written out from R90 (V5), R93 (V1, V3) and R101 (V40, V41) decode to what they stand for. -/
def Obligations.SpecWordsDecode : Prop :=
  decode (.host 0b000_10101011) = .ok (.hInit 0xAB) ∧ decode (.host 0b001_00000000) = .ok (.hShow 0x00) ∧
  decode (.host 0b010_00000000) = .ok (.hPowerOff 0x00) ∧ decode (.host 0b011_00000000) = .ok (.hPowerOn 0x00) ∧
  decode (.host 0b100_01111111) = .ok (.hSetContrast 0x7F) ∧ decode (.host 0b101_00000001) = .ok (.hSetInvert 0x01) ∧
  decode (.host 0b110_00000000) = .ok (.hReserved 0 0x00) ∧ decode (.host 0b111_11111111) = .ok (.hReserved 1 0xFF) ∧
  decode (.command [0x0F]) = .ok (.cColLow 15) ∧ decode (.command [0x14]) = .ok (.cColHigh 4) ∧
  decode (.command [0x20, 0x00]) = .ok (.cAddrMode 0x00) ∧ decode (.command [0x7F]) = .ok (.cStartLine 63) ∧
  decode (.command [0x81, 0xAE]) = .ok (.cContrast 0xAE) ∧ decode (.command [0xA1]) = .ok (.cSegRemap 1) ∧
  decode (.command [0xC8]) = .ok (.cComScan 1) ∧ decode (.command [0xB7]) = .ok (.cPage 7) ∧
  decode (.frame [0x00, 0x40]) = .ok (.i2cCtrlCmd 0x40) ∧
  decode (.frame [0x40, 0x01, 0x02, 0x03, 0x04]) = .ok (.i2cCtrlData [0x01, 0x02, 0x03, 0x04])

/-- The command byte map (R93, R99): a byte outside the 13 unmapped ranges selects exactly one row, a byte inside
one selects none and is refused by name. That 0x41 to 0x7F select a row is the start-line field's width
(log 12, PRESUMED by the spec). -/
def Obligations.CommandByteMapIsExact : Prop :=
  ∀ b : Byte,
    (outsideMap b = true → commandRows.countP (selects b) = 0 ∧
      decode (.command [b]) = .error (.unmappedCommand b)) ∧
    (outsideMap b = false → commandRows.countP (selects b) = 1 ∧ classify b ≠ .unmapped)

/-- Decoding the image of a well-formed instruction gives it back, with every operand at every value. -/
def Obligations.DecodeOfEncode : Prop :=
  ∀ i : Instr, i.wf = true → decode (encode i) = .ok i

/-- Each image has one meaning: the instruction an image decodes to is encoded by that image, and is well
formed. -/
def Obligations.EncodeOfDecode : Prop :=
  ∀ (image : Image) (i : Instr), decode image = .ok i → encode i = image ∧ i.wf = true

/-! ### Reset -/

/-- What reset leaves (R42, R280), of every instance: the values the rule gives, and "no value" where it says
so. -/
def Obligations.ResetLeavesTheTable : Prop :=
  ∀ c : Cfg,
    (State.resetOf c).lc = .uninitialized ∧ (State.resetOf c).busy = false ∧ (State.resetOf c).seq = .idle ∧
    (State.resetOf c).status = .ok ∧ (State.resetOf c).cfgWarn = false ∧
    (∀ a, Memory.read (State.resetOf c).fb a = none) ∧
    (c.transport = .i2c → (State.resetOf c).tr = .ready) ∧ (c.transport = .spi → (State.resetOf c).tr = .unreset) ∧
    (State.resetOf c).lines.cs = true ∧ (State.resetOf c).lines.dc = false ∧
    (State.resetOf c).lines.rst.has = false ∧ (State.resetOf c).lines.bus.has = false ∧
    (∀ a, Memory.read (State.resetOf c).t.gram a = none) ∧
    pageValue (State.resetOf c).t = none ∧ colValue (State.resetOf c).t = none ∧
    (State.resetOf c).t.pending = none ∧ (State.resetOf c).t.fault = false ∧
    (State.resetOf c).t.dispOn.has = false ∧ (State.resetOf c).t.addrMode.has = false ∧
    (State.resetOf c).t.startLine.has = false ∧ (State.resetOf c).t.segRemap.has = false ∧
    (State.resetOf c).t.muxRatio.has = false ∧ (State.resetOf c).t.comScan.has = false ∧
    (State.resetOf c).t.dispOffset.has = false ∧ (State.resetOf c).t.comPins.has = false ∧
    (State.resetOf c).t.clkDiv.has = false ∧ (State.resetOf c).t.precharge.has = false ∧
    (State.resetOf c).t.vcomDesel.has = false ∧ (State.resetOf c).t.contrast.has = false ∧
    (State.resetOf c).t.entireOn.has = false ∧ (State.resetOf c).t.invert.has = false ∧
    (State.resetOf c).t.chargePump.has = false ∧
    (State.resetOf c).calls = [] ∧ (State.resetOf c).wire = []

/-- The invariant holds at reset of every legal instance, so does that of the shadow. -/
def Obligations.ResetMeetsTheInvariants : Prop :=
  ∀ c : Cfg, c.legal = true → Inv (State.resetOf c) ∧ TargetInv (State.resetOf c)

/-! ### Host operations -/

/-- H_INIT is accepted in every lifecycle state (R121, R170). -/
def Obligations.InitIsAccepted : Prop :=
  ∀ (s : State) (arg : Byte), mayDispatch s →
    exec (.hInit arg) s = .next { s with
      busy := true, op := 0, arg := arg, lc := .initializing,
      cfgWarn := s.cfgWarn || decide (s.cfg.height % 8 ≠ 0), seq := .rom 0 }

/-- H_SHOW is accepted in `Active` (R121, R196): it loads `COLOFF` and goes to the first page, or, with no page,
completes at once, `ERR_SEQ` overwritten with a free value (R257; log 18). -/
def Obligations.ShowIsAccepted : Prop :=
  ∀ (s : State) (arg : Byte), mayDispatch s → s.lc = .active →
    (8 ≤ s.cfg.height → exec (.hShow arg) s = .next { s with
      busy := true, op := 1, arg := arg, coloff := BitVec.ofNat 7 ((132 - s.cfg.width) / 2), seq := .pageSel 0 }) ∧
    (s.cfg.height < 8 → exec (.hShow arg) s = .next { s with
      busy := false, op := 1, arg := arg, coloff := BitVec.ofNat 7 ((132 - s.cfg.width) / 2), seq := .idle,
      status := .ok, errSeq := Config.freeErrSeq s.ended, ended := s.ended + 1 })

/-- The four toggles are accepted in `Active` (R121): the code and the operand are latched and the sequencer goes
to the first byte. -/
def Obligations.TogglesAreAccepted : Prop :=
  ∀ (s : State) (arg : Byte), mayDispatch s → s.lc = .active →
    exec (.hPowerOff arg) s = .next { s with busy := true, op := 2, arg := arg, seq := .tog 0 } ∧
    exec (.hPowerOn arg) s = .next { s with busy := true, op := 3, arg := arg, seq := .tog 0 } ∧
    exec (.hSetContrast arg) s = .next { s with busy := true, op := 4, arg := arg, seq := .tog 0 } ∧
    exec (.hSetInvert arg) s = .next { s with busy := true, op := 5, arg := arg, seq := .tog 0 }

/-- Rejected (R253): a reserved code in every lifecycle state, and any request but `init` outside `Active`. Only
`STATUS` and `ERR_SEQ` change: the request overwrites `ERR_SEQ` with a free value (R257, R124; log 18). -/
def Obligations.RequestsAreRejected : Prop :=
  statusCode .rejected = 2 ∧
  ∀ (s : State) (code : BitVec 1) (arg : Byte), mayDispatch s →
    exec (.hReserved code arg) s = .next { s with
      status := .rejected, errSeq := Config.freeErrSeq s.ended, ended := s.ended + 1 } ∧
    (s.lc ≠ .active →
      ∀ i ∈ [Instr.hShow arg, .hPowerOff arg, .hPowerOn arg, .hSetContrast arg, .hSetInvert arg],
        exec i s = .next { s with
      status := .rejected, errSeq := Config.freeErrSeq s.ended, ended := s.ended + 1 })

/-- A request offered while `BUSY = 1` or before `TR = T_Ready` is neither accepted nor rejected (R125): executing
one changes nothing, and a step of a busy engine leaves the port (the host's list, log 2) as it is. -/
def Obligations.RequestsAreHeld : Prop :=
  ∀ (s : State) (code : BitVec 1) (arg : Byte), s.cfg.legal = true →
    (s.busy = true ∨ s.tr ≠ .ready →
      ∀ i ∈ [Instr.hInit arg, .hShow arg, .hPowerOff arg, .hPowerOn arg, .hSetContrast arg, .hSetInvert arg,
        .hReserved code arg], exec i s = .next s) ∧
    (s.busy = true ∨ s.tr ≠ .ready → ∀ (w : HostWord) (rest : List HostMove) (s' : State),
      s.host = .req w :: rest → step s = .next s' → s'.host = s.host)

/-- The frame of the host operations: whatever one of them does, it writes no register but `LC`, `BUSY`, `OP`,
`ARG`, `COLOFF`, `SEQ`, `STATUS`, `CFG_WARN` and `ERR_SEQ`, no byte of FB, nothing of the target, no line and no
trace. `STATUS` and `ERR_SEQ` are as they were, or the request ends at once and overwrites both (R124, R257),
`ERR_SEQ` with a free value (log 18). -/
def Obligations.HostOperationFrame : Prop :=
  ∀ (s s' : State) (code : BitVec 1) (arg : Byte),
    ∀ i ∈ [Instr.hInit arg, .hShow arg, .hPowerOff arg, .hPowerOn arg, .hSetContrast arg, .hSetInvert arg,
      .hReserved code arg], exec i s = .next s' →
    s' = { s with
      lc := s'.lc, busy := s'.busy, op := s'.op, arg := s'.arg, coloff := s'.coloff, seq := s'.seq,
      status := s'.status, cfgWarn := s'.cfgWarn, errSeq := s'.errSeq, ended := s'.ended } ∧
    ((s'.status = s.status ∧ s'.errSeq = s.errSeq ∧ s'.ended = s.ended) ∨
      (s'.busy = false ∧ (s'.status = .ok ∨ s'.status = .rejected) ∧ s'.errSeq = Config.freeErrSeq s.ended ∧
        s'.ended = s.ended + 1))

/-- No step writes the configuration, and an instance whose cfg is outside the legal values of the parameter table
has no behaviour at all (R20). -/
def Obligations.ConfigurationIsAParameter : Prop :=
  (∀ s s' : State, step s = .next s' → s'.cfg = s.cfg) ∧
  ∀ (s : State) (code : BitVec 1) (arg : Byte),
    ¬ (1 ≤ s.cfg.width ∧ s.cfg.width ≤ 132 ∧ 1 ≤ s.cfg.height ∧ s.cfg.height ≤ 64 ∧
      1 ≤ s.cfg.tRstA ∧ 10 ≤ s.cfg.tRstB ∧ 100 ≤ s.cfg.tRstC) →
    step s = .refused .illegalConfig ∧
    ∀ i ∈ [Instr.hInit arg, .hShow arg, .hPowerOff arg, .hPowerOn arg, .hSetContrast arg, .hSetInvert arg,
      .hReserved code arg], exec i s = .refused .illegalConfig

/-- A host write while `BUSY = 0`, whether or not the adapter is ready, stores the byte, and no other (R32, R126);
outside FB it faults (the model's stop, log 9). -/
def Obligations.HostWritesOneByte : Prop :=
  ∀ (s : State) (a : Nat) (v : Byte) (rest : List HostMove),
    s.cfg.legal = true → s.busy = false → s.host = .fbWrite a v :: rest →
    (a < s.cfg.height / 8 * s.cfg.width → ∃ fb, step s = .next { s with host := rest, fb := fb } ∧
      Memory.read fb a = some v ∧ ∀ b, b ≠ a → Memory.read fb b = Memory.read s.fb b) ∧
    (s.cfg.height / 8 * s.cfg.width ≤ a → step s = .fault (.fbOutOfRange a))

/-- What the host reads (40_host_operations.md section 1): the five status items, under the codes of 10_state.md, in
every state; and, while the engine is at rest, a frame-buffer byte, or a fault where there is none (log 9). -/
def Obligations.HostReads : Prop :=
  ∀ s : State,
    (statusView s).busy = s.busy ∧ (statusView s).cfgWarn = s.cfgWarn ∧ (statusView s).errSeq = s.errSeq ∧
    (statusView s).status = (match s.status with | .ok => 0 | .busError => 1 | .rejected => 2) ∧
    (statusView s).lc = (match s.lc with | .uninitialized => 0 | .initializing => 1 | .active => 2) ∧
    ∀ a,
      (s.busy = true → hostReadFb s a = none) ∧
      (∀ v, s.busy = false → a < s.cfg.height / 8 * s.cfg.width → Memory.read s.fb a = some v →
        hostReadFb s a = some (.ok v)) ∧
      (s.busy = false → a < s.cfg.height / 8 * s.cfg.width → Memory.read s.fb a = none →
        hostReadFb s a = some (.error (.fbNoValue a))) ∧
      (s.busy = false → s.cfg.height / 8 * s.cfg.width ≤ a → hostReadFb s a = some (.error (.fbOutOfRange a)))

/-! ### Commands of the target -/

/-- The mode commands of one byte whose effect the source gives outright (R146, R147, R148, R152): the named
register takes the value, and nothing else changes. -/
def Obligations.ModeCommandsSetTheirRegister : Prop :=
  ∀ s : State, s.t.fault = false →
    (∀ r, exec (.cSegRemap r) s = .next { s with t := { s.t with segRemap := Reg.of r } }) ∧
    exec .cEntireOn s = .next { s with t := { s.t with entireOn := Reg.of 0 } } ∧
    (∀ v, exec (.cNormInv v) s = .next { s with t := { s.t with invert := Reg.of v } }) ∧
    (∀ d, exec (.cComScan d) s = .next { s with t := { s.t with comScan := Reg.of d } })

/-- The one-byte commands of whose effect the spec marks a part as its own inference (41_command_set.md: the
other nibble and the column are kept, GRAM and the modes are kept across off and on; the width of the
start-line field, log 12). -/
def Obligations.PointerAndDisplayCommandsSetTheirRegister : Prop :=
  ∀ s : State, s.t.fault = false →
    (∀ n, exec (.cColLow n) s = .next { s with t := { s.t with colLo := Reg.of n } }) ∧
    (∀ n, exec (.cColHigh n) s = .next { s with t := { s.t with colHi := Reg.of n } }) ∧
    (∀ p, exec (.cPage p) s = .next { s with t := { s.t with page := Reg.of p } }) ∧
    (∀ l, exec (.cStartLine l) s = .next { s with t := { s.t with startLine := Reg.of l } }) ∧
    (∀ on, exec (.cDisp on) s = .next { s with t := { s.t with dispOn := Reg.of on } })

/-- The nine two-byte commands (R142, R144, R145, R149, R153 to R157): once the parameter has arrived the named
register holds it, nothing is pending, and nothing else changes. The instruction carries its parameter (log 11). -/
def Obligations.ParameterCommandsSetTheirRegister : Prop :=
  ∀ (s : State) (b : Byte), s.t.fault = false →
    exec (.cAddrMode b) s = .next { s with t := { s.t with addrMode := Reg.of b, pending := none } } ∧
    exec (.cContrast b) s = .next { s with t := { s.t with contrast := Reg.of b, pending := none } } ∧
    exec (.cChargePump b) s = .next { s with t := { s.t with chargePump := Reg.of b, pending := none } } ∧
    exec (.cMuxRatio b) s = .next { s with t := { s.t with muxRatio := Reg.of b, pending := none } } ∧
    exec (.cDispOffset b) s = .next { s with t := { s.t with dispOffset := Reg.of b, pending := none } } ∧
    exec (.cClkDiv b) s = .next { s with t := { s.t with clkDiv := Reg.of b, pending := none } } ∧
    exec (.cPrecharge b) s = .next { s with t := { s.t with precharge := Reg.of b, pending := none } } ∧
    exec (.cComPins b) s = .next { s with t := { s.t with comPins := Reg.of b, pending := none } } ∧
    exec (.cVcomDesel b) s = .next { s with t := { s.t with vcomDesel := Reg.of b, pending := none } }

/-- Decode of a command-stream byte (41_command_set.md section 1): a pending parameter is taken whatever its value;
a one-byte command is executed; the first byte of a two-byte command is remembered; a byte outside the map
sets `T.fault`. -/
def Obligations.CommandStreamDecode : Prop :=
  ∀ (s : State) (b : Byte), s.t.fault = false →
    (∀ m, s.t.pending = some m → exec (withParam m b) s = .next { s with t := recvCmd b s.t }) ∧
    (s.t.pending = none → ∀ i, classify b = .one i → exec i s = .next { s with t := recvCmd b s.t }) ∧
    (s.t.pending = none → ∀ m, b = commandByte m → recvCmd b s.t = { s.t with pending := some m }) ∧
    (s.t.pending = none → outsideMap b = true → recvCmd b s.t = { s.t with fault := true })

/-- A data byte (41_command_set.md section 3): stored at the pointers, the column advancing by one; and the three
arms that set `T.fault`. Every byte of GRAM but the one stored is as it was. -/
def Obligations.DataByteIsStoredAtThePointers : Prop :=
  ∀ (t : Target) (v : Byte), t.fault = false →
    (∀ page : BitVec 3, ∀ col : Byte, t.pending = none → pageValue t = some page → colValue t = some col →
      col ≤ 131 → ∃ g, recvData v t = { t with
          gram := g, colHi := Reg.of ((col + 1).extractLsb' 4 4), colLo := Reg.of ((col + 1).extractLsb' 0 4) } ∧
        Memory.read g (page.toNat * 132 + col.toNat) = some v ∧
        ∀ k, k ≠ page.toNat * 132 + col.toNat → Memory.read g k = Memory.read t.gram k) ∧
    (t.pending ≠ none → recvData v t = { t with fault := true }) ∧
    (pageValue t = none ∨ colValue t = none → recvData v t = { t with fault := true }) ∧
    (∀ col, colValue t = some col → 131 < col → recvData v t = { t with fault := true })

/-- Once `T.fault` is set the shadow takes nothing in (R41, R139, R160). -/
def Obligations.FaultedShadowTakesNothing : Prop :=
  ∀ (s : State) (b : Byte) (bs : List Byte), s.t.fault = true →
    recvCmd b s.t = s.t ∧ recvDatas bs s.t = s.t ∧ recvData b s.t = s.t ∧
    exec (.i2cCtrlCmd b) s = .next s ∧ exec (.i2cCtrlData bs) s = .next s ∧
    (∀ i, classify b = .one i → exec i s = .next s) ∧ (∀ m, exec (withParam m b) s = .next s)

/-- The I2C control bytes (R217): `T.recv_cmd(b)` runs once; `T.recv_data` runs on the bytes that follow, in
order. Only the shadow changes. -/
def Obligations.ControlBytesChooseTheEntryPoint : Prop :=
  ∀ s : State,
    (∀ b, exec (.i2cCtrlCmd b) s = .next { s with t := recvCmd b s.t }) ∧
    (∀ v bs, exec (.i2cCtrlData (v :: bs)) s =
      .next { s with t := bs.foldl (fun t v => recvData v t) (recvData v s.t) })

/-! ### The sequencer -/

/-- The one transport call of each position (R173, R185, R198 to R201). -/
def Obligations.PositionsMakeTheirCall : Prop :=
  ∀ s : State,
    (∀ i, s.seq = .rom i → callAt s = .ok (.wc (romByte s.cfg i))) ∧
    (∀ p, s.seq = .pageSel p → callAt s = .ok (.wc (0xB0 ||| BitVec.ofNat 8 p))) ∧
    (∀ p, s.seq = .colLow p → callAt s = .ok (.wc (BitVec.ofNat 8 (s.coloff.toNat % 16)))) ∧
    (∀ p, s.seq = .colHigh p → callAt s = .ok (.wc (BitVec.ofNat 8 (16 + s.coloff.toNat / 16)))) ∧
    (∀ p, s.seq = .data p → p < s.cfg.height / 8 → fbFull s.cfg s.fb →
      callAt s = .ok (.wd (pageSlice s.cfg s.fb p)) ∧ (pageSlice s.cfg s.fb p).length = s.cfg.width ∧
      ∀ x, x < s.cfg.width → Memory.read s.fb (p * s.cfg.width + x) = (pageSlice s.cfg s.fb p)[x]?) ∧
    (s.seq = .tog 0 → s.op = 2 → callAt s = .ok (.wc 0xAE)) ∧
    (s.seq = .tog 0 → s.op = 3 → callAt s = .ok (.wc 0xAF)) ∧
    (s.seq = .tog 0 → s.op = 4 → callAt s = .ok (.wc 0x81)) ∧
    (s.seq = .tog 1 → s.op = 4 → callAt s = .ok (.wc s.arg)) ∧
    (s.seq = .tog 0 → s.op = 5 → callAt s = .ok (.wc (if s.arg.getLsbD 0 then 0xA7 else 0xA6)))

/-- The successors (R172, R185, R197). -/
def Obligations.PositionsFollowInOrder : Prop :=
  ∀ (c : Cfg) (op : BitVec 3) (p : Nat),
    (∀ i : Fin 24, succ c op (.rom i.castSucc) = .rom i.succ) ∧ succ c op (.rom 24) = .clear ∧
    succ c op (.pageSel p) = .colLow p ∧ succ c op (.colLow p) = .colHigh p ∧ succ c op (.colHigh p) = .data p ∧
    (p + 1 < c.height / 8 → succ c op (.data p) = .pageSel (p + 1)) ∧
    (c.height / 8 ≤ p + 1 → succ c op (.data p) = .idle) ∧
    succ c 4 (.tog 0) = .tog 1 ∧ (op ≠ 4 → succ c op (.tog 0) = .idle) ∧ succ c op (.tog 1) = .idle

/-- The init ROM (R171), read as a command stream, is the source's list of sixteen steps, in order. -/
def Obligations.RomIsTheSixteenSteps : Prop :=
  ∀ c : Cfg, c.legal = true →
    decodeStream 16 (romBytes c).toList = .ok
      [.cDisp 0, .cAddrMode 0x00, .cStartLine 0, .cSegRemap 1, .cMuxRatio (BitVec.ofNat 8 (c.height - 1)),
       .cComScan 1, .cDispOffset 0x00, .cComPins 0x12, .cClkDiv 0x80,
       .cPrecharge (if c.externalVcc then 0x22 else 0xF1), .cVcomDesel 0x30, .cContrast 0xFF, .cEntireOn,
       .cNormInv 0, .cChargePump (if c.externalVcc then 0x10 else 0x14), .cDisp 1]

/-- A call answered `ok` (R122, R123): the frame goes out, the target takes the call in, and the engine goes to the
successor, or completes where the operation ends. The answer is the first of the model's list (log 3). Completion
overwrites `ERR_SEQ` with a free value (R257, R124; log 18). -/
def Obligations.AnsweredOkAdvances : Prop :=
  ∀ (s : State) (c : Call) (rest : List Answer), mayCall s → callAt s = .ok c → s.script = .ok :: rest →
    (succ s.cfg s.op s.seq ≠ .idle → step s = .next { s with
      script := rest, t := recvCall c s.t, wire := s.wire ++ wireFrame s.cfg c c.bytes.length,
      lines := linesAfter s.cfg c s.lines, calls := s.calls ++ [{ call := c, ok := true }],
      seq := succ s.cfg s.op s.seq }) ∧
    (succ s.cfg s.op s.seq = .idle → step s = .next { s with
      script := rest, t := recvCall c s.t, wire := s.wire ++ wireFrame s.cfg c c.bytes.length,
      lines := linesAfter s.cfg c s.lines, calls := s.calls ++ [{ call := c, ok := true }],
      seq := .idle, busy := false, status := .ok, lc := if s.op = 0 then .active else s.lc,
      errSeq := Config.freeErrSeq s.ended, ended := s.ended + 1 })

/-- BusError (R250, R251): the operation ends at the failed call, its position is recorded, `LC` falls to
`Uninitialized` if it was `init`. The target has taken in the drawn part (R252): the command byte or not, a
prefix of the data. On I2C the failed transaction's whole event stays in the wire trace (log 13, DEDUCED). The
answer is the first of the model's list (log 3). -/
def Obligations.AnsweredFailAborts : Prop :=
  statusCode .busError = 1 ∧
  ∀ (s : State) (c : Call) (sent received : Nat) (rest : List Answer),
    mayCall s → callAt s = .ok c → s.script = .fail sent received :: rest →
    step s = .next { s with
      script := rest,
      t := match c with
        | .wc b => if received = 0 then s.t else recvCmd b s.t
        | .wd bs => (bs.take received).foldl (fun t v => recvData v t) s.t
      wire := s.wire ++ wireFrame s.cfg c sent,
      lines := linesAfter s.cfg c s.lines, calls := s.calls ++ [{ call := c, ok := false }],
      status := .busError, errSeq := s.seq, lc := if s.op = 0 then .uninitialized else s.lc,
      seq := .idle, busy := false }

/-- A call that is not answered yet leaves the machine as it is (U13); the answers not held in State are free ones,
in the order of the counter `drawn` (log 3). -/
def Obligations.UnansweredCallWaits : Prop :=
  ∀ (s : State) (c : Call), mayCall s → callAt s = .ok c →
    (∀ rest, s.script = .wait :: rest → step s = .next { s with script := rest }) ∧
    (s.script = [] →
      ∀ s', step { s with script := [Config.freeAnswer s.drawn] } = .next s' →
        step s = .next { s' with drawn := s.drawn + 1 })

/-- `Clear` (R174, R196): every byte of FB becomes zero, `COLOFF` is loaded and the show begins; with no page the
operation completes, `ERR_SEQ` overwritten with a free value (R257; log 18). -/
def Obligations.ClearZeroesTheFrameBuffer : Prop :=
  ∀ s : State, mayCall s → s.seq = .clear →
    ∃ fb, (∀ a, a < s.cfg.height / 8 * s.cfg.width → Memory.read fb a = some 0x00) ∧
      (∀ a, s.cfg.height / 8 * s.cfg.width ≤ a → Memory.read fb a = Memory.read s.fb a) ∧
      (8 ≤ s.cfg.height → step s = .next { s with
        fb := fb, coloff := BitVec.ofNat 7 ((132 - s.cfg.width) / 2), seq := .pageSel 0 }) ∧
      (s.cfg.height < 8 → step s = .next { s with
        fb := fb, coloff := BitVec.ofNat 7 ((132 - s.cfg.width) / 2), seq := .idle, busy := false, status := .ok,
        lc := if s.op = 0 then .active else s.lc, errSeq := Config.freeErrSeq s.ended, ended := s.ended + 1 })

/-- The SPI reset pulse (R225), one phase a step while the host makes no move; a request is held until the pulse
has ended (log 6). -/
def Obligations.ResetPulseRunsFirst : Prop :=
  ∀ (s : State) (held : List HostMove), s.cfg.legal = true → s.cfg.transport = .spi →
    (s.busy = true ∧ s.host = held) ∨ (s.busy = false ∧ hostWaits s held) →
    (s.tr = .unreset → step s = .next { s with
      host := held, tr := .pulseA, wire := s.wire ++ [.rst true], lines := { s.lines with rst := Reg.of 1 } }) ∧
    (s.tr = .pulseA → step s = .next { s with
      host := held, tr := .pulseB, wire := s.wire ++ [.delay s.cfg.tRstA, .rst false],
      lines := { s.lines with rst := Reg.of 0 } }) ∧
    (s.tr = .pulseB → step s = .next { s with
      host := held, tr := .pulseC, wire := s.wire ++ [.delay s.cfg.tRstB, .rst true],
      lines := { s.lines with rst := Reg.of 1 } }) ∧
    (s.tr = .pulseC → step s = .next { s with
      host := held, tr := .ready, wire := s.wire ++ [.delay s.cfg.tRstC] })

/-! ### Frames on the wire -/

/-- The I2C frame (R216). -/
def Obligations.I2cFrameOfACall : Prop :=
  ∀ (c : Cfg) (n : Nat), c.transport = .i2c →
    (∀ b, wireFrame c (.wc b) n = [.i2cWr c.i2cAddr [0x00, b]]) ∧
    (∀ bs, wireFrame c (.wd bs) n = [.i2cWr c.i2cAddr ([0x40] ++ bs)])

/-- The SPI frames (R221, R222). -/
def Obligations.SpiFrameOfACall : Prop :=
  ∀ c : Cfg, c.transport = .spi →
    (∀ b, wireFrame c (.wc b) 1 = [.spiCfg c.spiRate 0, .cs true, .dc false, .cs false, .tx b, .cs true]) ∧
    (∀ bs : List Byte, wireFrame c (.wd bs) bs.length =
      [.spiCfg c.spiRate 0, .cs true, .dc true, .cs false] ++ bs.map .tx ++ [.cs true])

/-- Line levels of a transfer, broken off or not (45_transport_adapters.md sections 3 and its rule on a failed
transfer): the bytes sent are the first `sent` of the call, each while selected and with `DC` low for a
command and high for data, whatever the lines were before; `CS` is high at the end. -/
def Obligations.SpiLinesDuringATransfer : Prop :=
  ∀ (rate : Nat) (c : Call) (sent : Nat) (l : Lines),
    selectedBytes l (spiFrame rate c sent) = (c.bytes.take sent).map (fun b => (c.isData, b)) ∧
    wireOk 0 l (spiFrame rate c sent) = true ∧
    ((spiFrame rate c sent).foldl Lines.drive l).cs = true ∧
    ((spiFrame rate c sent).foldl Lines.drive l).rst = l.rst

/-- Both adapters deliver a call answered `ok` alike (45_transport_adapters.md section 4): what the target hears in
the frame is what the call hands to the two entry points. -/
def Obligations.AdaptersDeliverAlike : Prop :=
  ∀ (c : Cfg) (call : Call) (l : Lines) (t : Target),
    hear c.i2cAddr (wireFrame c call call.bytes.length) l t = recvCall call t

/-! ### The mapper -/

/-- The window lies inside the GRAM (20_memory.md section 2), and the offset fits the seven bits of `COLOFF`. -/
def Obligations.WindowLiesInsideTheGram : Prop :=
  ∀ c : Cfg, c.legal = true →
    (colOffset c).toNat = (132 - c.width) / 2 ∧ (colOffset c).toNat ≤ 65 ∧
    (colOffset c).toNat + c.width - 1 = (132 + c.width) / 2 - 1 ∧ (colOffset c).toNat + c.width - 1 ≤ 131 ∧
    (∀ p x, p < pages c → x < c.width →
      fbIndex c p x < fbSize c ∧ gramKey p ((colOffset c).toNat + x) < 8 * 132)

/-- The three address bytes of a page decode to the commands they are meant for, and leave the target's pointers at
the page and the column offset (44_show_frame_sequencer.md, 30_encoding.md section 3). -/
def Obligations.AddressBytesSetThePointers : Prop :=
  ∀ (c : Cfg) (p : Nat) (t : Target), c.legal = true → p < pages c → t.fault = false → t.pending = none →
    recvCmd (colHighByte (colOffset c)) (recvCmd (colLowByte (colOffset c)) (recvCmd (pageByte p) t)) =
      { t with
        page := Reg.of (BitVec.ofNat 3 p), colLo := Reg.of (BitVec.ofNat 4 ((132 - c.width) / 2)),
        colHi := Reg.of (BitVec.ofNat 4 ((132 - c.width) / 2 / 16)) }

/-! ### Memory -/

/-- Memories in canonical form that read alike are equal data. The form is the model's: a byte that is not listed has
no value (log 14, DEDUCED from R42). -/
def Obligations.CanonicalMemoriesAreEqual : Prop :=
  ∀ m n : Memory, m.wf → n.wf → (∀ a, Memory.read m a = Memory.read n a) → m = n

/-! ### Whole-machine rules -/

/-- `CFG_WARN` is sticky (R30); so is `T.fault`, after which nothing of the shadow moves (R41). -/
def Obligations.StickyStateStays : Prop :=
  ∀ s s' : State, step s = .next s' →
    (s.cfgWarn = true → s'.cfgWarn = true) ∧ (s.t.fault = true → s'.t = s.t)

/-- The lifecycle (R262): `Initializing` is entered only by accepting `init`, `Active` only by its completion, and
`Uninitialized` only by a BusError during it. -/
def Obligations.LifecycleMoves : Prop :=
  ∀ s s' : State, Inv s → step s = .next s' → s'.lc ≠ s.lc →
    (s'.lc = .initializing ∧ s.busy = false ∧ s'.busy = true ∧ s'.op = 0 ∧ s'.seq = .rom 0) ∨
    (s.lc = .initializing ∧ s'.lc = .active ∧ s'.busy = false ∧ s'.status = .ok) ∨
    (s.lc = .initializing ∧ s'.lc = .uninitialized ∧ s'.busy = false ∧ s'.status = .busError ∧ s'.errSeq = s.seq)

/-- The frame buffer is written by the `Clear` step and by the host's writes, and by nothing else (R32). -/
def Obligations.FrameBufferWriters : Prop :=
  ∀ s s' : State, step s = .next s' → s'.fb ≠ s.fb →
    (s.busy = true ∧ s.seq = .clear) ∨ (s.busy = false ∧ ∃ a v rest, s.host = .fbWrite a v :: rest)

/-- GRAM is written only by data bytes (R37): by the `Data` step of a busy engine, and by what arrives from
outside (log 5). Every other step leaves every cell as it was. With nothing but the engine driving the shadow, no
step, whatever the answer, writes a cell outside the columns of the window in the row `T.page` points at (R66). -/
def Obligations.GramWriters : Prop :=
  (∀ s s' : State, step s = .next s' → s'.t.gram ≠ s.t.gram →
    (s.busy = true ∧ ∃ p, s.seq = .data p) ∨ (s.busy = false ∧ s.tin ≠ [])) ∧
  ∀ s s' : State, TargetInv s → s.tin = [] → step s = .next s' →
    ∀ k, (∀ x, x < s.cfg.width → k ≠ s.t.page.val.toNat * 132 + ((132 - s.cfg.width) / 2 + x)) →
      Memory.read s'.t.gram k = Memory.read s.t.gram k

/-- The traces only grow; a step makes at most one transport call, and none unless the engine is BUSY (R27, R122). -/
def Obligations.OneCallAStep : Prop :=
  ∀ s s' : State, step s = .next s' →
    ∃ calls events, s'.calls = s.calls ++ calls ∧ s'.wire = s.wire ++ events ∧ calls.length ≤ 1 ∧
      (s.busy = false → calls = []) ∧ (s.busy = true → s.seq = .clear → calls = [])

/-- The engine never reads the target (10_state.md section 6): two machines that differ only in the shadow make the
same step, but for the shadow. -/
def Obligations.EngineNeverReadsTheTarget : Prop :=
  ∀ (s : State) (t u blank : Target),
    forgetTarget blank (step { s with t := t }) = forgetTarget blank (step { s with t := u })

/-! ### Invariants -/

/-- Every step keeps the invariant. -/
def Obligations.StepKeepsTheInvariant : Prop :=
  ∀ s s' : State, Inv s → step s = .next s' → Inv s'

/-- No step faults or refuses but for a move that is not the host's to make or a payload that is not the block's (the
model's stops, log 9, at its own ports, log 2 and log 5): a `Data` step never reads a byte that has no value
(R32). -/
def Obligations.StepsStopOnlyOnForeignInput : Prop :=
  ∀ s : State, Inv s →
    (∀ f, step s = .fault f → ∃ a v rest, s.host = .fbWrite a v :: rest ∧ fbSize s.cfg ≤ a ∧ f = .fbOutOfRange a) ∧
    (∀ r, step s = .refused r → ∃ bs rest, s.tin = .payload bs :: rest ∧ r = .unknownFrame bs)

/-- Every answered step of a busy engine brings the operation one step nearer its end (R128). -/
def Obligations.AnsweredStepsEndTheOperation : Prop :=
  ∀ s : State, Inv s → s.busy = true → nextAnswer s ≠ .wait →
    0 < stepsLeft s.cfg s.op s.seq ∧ stepsLeft s.cfg s.op s.seq ≤ 26 + 4 * pages s.cfg ∧
    ∃ s', step s = .next s' ∧
      (s'.busy = true → stepsLeft s'.cfg s'.op s'.seq + 1 = stepsLeft s.cfg s.op s.seq)

/-- On I2C the wire trace is the transport trace, framed, at every moment (R216, R219), a failed call included
(log 13). -/
def Obligations.I2cWireIsTheFramedCallTrace : Prop :=
  ∀ s s' : State, s.cfg.transport = .i2c →
    s.wire = s.calls.map (fun r => .i2cWr s.cfg.i2cAddr (i2cPayload r.call)) → step s = .next s' →
    s'.wire = s'.calls.map (fun r => .i2cWr s'.cfg.i2cAddr (i2cPayload r.call))

/-- Every step keeps the discipline of the wire (R216, R224): bytes only while selected, `DC` moved only while not,
I2C transactions with their control bytes; and no byte before the reset pulse has ended (R225, R286). -/
def Obligations.StepKeepsTheWireDiscipline : Prop :=
  ∀ s s' : State, Inv s → wireOk s.cfg.i2cAddr Lines.reset s.wire = true →
    (s.tr ≠ .ready → ∀ e ∈ s.wire, isTx e = false) → step s = .next s' →
    wireOk s'.cfg.i2cAddr Lines.reset s'.wire = true ∧
      (s'.tr ≠ .ready → ∀ e ∈ s'.wire, isTx e = false)

/-- With nothing but the engine driving it, the shadow stays where the sequencer expects it. -/
def Obligations.StepKeepsTheTargetInvariant : Prop :=
  ∀ s s' : State, TargetInv s → s.tin = [] → step s = .next s' → TargetInv s'

/-- With nothing but the engine driving it, the shadow faults only at the second byte of `set_contrast`, and only when
the first was swallowed as a parameter and the operand is outside the map: never on a data byte, never in
`init` or `show`. -/
def Obligations.EngineFaultsTheTargetOnlyBySetContrast : Prop :=
  ∀ s s' : State, TargetInv s → s.tin = [] → step s = .next s' → s.t.fault = false → s'.t.fault = true →
    s.busy = true ∧ s.op = 4 ∧ s.seq = .tog 1 ∧ s.t.pending = none ∧ outsideMap s.arg = true

/-- A show makes no parameter pending: whatever the answer, one of its steps leaves none pending, or the one that
was. So a show that starts with none pending ends with none, and one that starts with one pending keeps it only
while no byte is received (R287). -/
def Obligations.ShowMakesNothingPending : Prop :=
  ∀ s s' : State, Inv s → pageOf s.seq ≠ none → step s = .next s' →
    (s'.t.pending = none ∨ s'.t.pending = s.t.pending) ∧
    ((∀ p, s.seq ≠ .data p) → s.t.fault = false → s'.t.pending ≠ none → s'.t = s.t)

/-! ### Whole operations -/

/-- A show whose calls are all answered `ok` sends the frame, which is a function of cfg and FB alone, and nothing
else, in `1 + 4·PAGES` steps. The answers stand in the model's list (log 3). -/
def Obligations.ShowSendsTheFrame : Prop :=
  ∀ (s : State) (arg : Byte) (rest : List HostMove) (more : List Answer),
    mayDispatch s → s.lc = .active → s.host = .req (hostWord 1 arg) :: rest → fbFull s.cfg s.fb →
    s.script = List.replicate (4 * pages s.cfg) .ok ++ more →
    ∃ s', run (1 + 4 * pages s.cfg) s = .next s' ∧
      s'.calls = s.calls ++ (frameCalls s.cfg s.fb).map okCall ∧
      s'.status = .ok ∧ s'.busy = false ∧ s'.seq = .idle ∧ s'.lc = .active ∧ s'.fb = s.fb ∧
      s'.host = rest ∧ s'.script = more

/-- The same show leaves the frame in the window of GRAM, the pointers after its last byte, and every other cell and
register of the target as they were, whatever the pointers were before (R203). -/
def Obligations.ShowFillsTheWindow : Prop :=
  ∀ (s : State) (arg : Byte) (rest : List HostMove) (more : List Answer),
    mayDispatch s → s.lc = .active → s.host = .req (hostWord 1 arg) :: rest → fbFull s.cfg s.fb →
    s.script = List.replicate (4 * pages s.cfg) .ok ++ more → s.t.fault = false → s.t.pending = none →
    0 < pages s.cfg →
    ∃ s' g, run (1 + 4 * pages s.cfg) s = .next s' ∧
      s'.t = { s.t with
        gram := g, page := Reg.of (BitVec.ofNat 3 (pages s.cfg - 1)),
        colHi := Reg.of ((BitVec.ofNat 8 ((132 - s.cfg.width) / 2 + s.cfg.width)).extractLsb' 4 4),
        colLo := Reg.of ((BitVec.ofNat 8 ((132 - s.cfg.width) / 2 + s.cfg.width)).extractLsb' 0 4) } ∧
      (∀ p x, p < pages s.cfg → x < s.cfg.width →
        Memory.read g (p * 132 + ((132 - s.cfg.width) / 2 + x)) = Memory.read s.fb (p * s.cfg.width + x)) ∧
      (∀ k, (∀ p x, p < pages s.cfg → x < s.cfg.width → k ≠ p * 132 + ((132 - s.cfg.width) / 2 + x)) →
        Memory.read g k = Memory.read s.t.gram k)

/-- An `init` whose calls are all answered `ok`, started on a shadow without fault, even one that awaits a parameter,
ends active, its 25 ROM bytes and one blank frame sent, with every mode register set, FB zero and the window
zero, in `27 + 4·PAGES` steps. The answers stand in the model's list (log 3). -/
def Obligations.InitLeavesABlankActiveDisplay : Prop :=
  ∀ (s : State) (arg : Byte) (rest : List HostMove) (more : List Answer),
    mayDispatch s → s.host = .req (hostWord 0 arg) :: rest →
    s.script = List.replicate (25 + 4 * pages s.cfg) .ok ++ more → s.t.fault = false →
    ∃ s' g page colHi colLo, run (27 + 4 * pages s.cfg) s = .next s' ∧
      s'.lc = .active ∧ s'.status = .ok ∧ s'.busy = false ∧ s'.seq = .idle ∧ s'.host = rest ∧ s'.script = more ∧
      (∀ a, a < fbSize s.cfg → Memory.read s'.fb a = some 0x00) ∧
      s'.calls = s.calls ++
        ((romBytes s.cfg).toList.map Call.wc ++ frameCalls s.cfg s'.fb).map okCall ∧
      s'.t =
        { gram := g, page := page, colHi := colHi, colLo := colLo, pending := none, fault := false,
          dispOn := Reg.of 1, addrMode := Reg.of 0x00, startLine := Reg.of 0, segRemap := Reg.of 1,
          muxRatio := Reg.of (BitVec.ofNat 8 (s.cfg.height - 1)), comScan := Reg.of 1, dispOffset := Reg.of 0x00,
          comPins := Reg.of 0x12, clkDiv := Reg.of 0x80,
          precharge := Reg.of (if s.cfg.externalVcc then 0x22 else 0xF1), vcomDesel := Reg.of 0x30,
          contrast := Reg.of 0xFF, entireOn := Reg.of 0, invert := Reg.of 0,
          chargePump := Reg.of (if s.cfg.externalVcc then 0x10 else 0x14) } ∧
      (∀ p x, p < pages s.cfg → x < s.cfg.width →
        Memory.read g (p * 132 + ((132 - s.cfg.width) / 2 + x)) = some 0x00) ∧
      (∀ k, (∀ p x, p < pages s.cfg → x < s.cfg.width → k ≠ p * 132 + ((132 - s.cfg.width) / 2 + x)) →
        Memory.read g k = Memory.read s.t.gram k) ∧
      (0 < pages s.cfg → page = Reg.of (BitVec.ofNat 3 (pages s.cfg - 1)) ∧
        colHi = Reg.of ((BitVec.ofNat 8 ((132 - s.cfg.width) / 2 + s.cfg.width)).extractLsb' 4 4) ∧
        colLo = Reg.of ((BitVec.ofNat 8 ((132 - s.cfg.width) / 2 + s.cfg.width)).extractLsb' 0 4)) ∧
      (pages s.cfg = 0 → page = s.t.page ∧ colHi = s.t.colHi ∧ colLo = s.t.colLo)

/-- The four toggles run to their end (R186 to R189): the bytes they send, and what they leave in a shadow that is in
step. The answers stand in the model's list (log 3). -/
def Obligations.TogglesRunToTheirEnd : Prop :=
  ∀ (s : State) (arg : Byte) (rest : List HostMove) (more : List Answer),
    mayDispatch s → s.lc = .active → s.script = .ok :: .ok :: more →
    s.t.fault = false → s.t.pending = none →
    (s.host = .req (hostWord 2 arg) :: rest → ∃ s', run 2 s = .next s' ∧ s'.busy = false ∧ s'.status = .ok ∧
      s'.lc = .active ∧ s'.calls = s.calls ++ [okCall (.wc 0xAE)] ∧ s'.t = { s.t with dispOn := Reg.of 0 } ∧
      s'.fb = s.fb) ∧
    (s.host = .req (hostWord 3 arg) :: rest → ∃ s', run 2 s = .next s' ∧ s'.busy = false ∧ s'.status = .ok ∧
      s'.lc = .active ∧ s'.calls = s.calls ++ [okCall (.wc 0xAF)] ∧ s'.t = { s.t with dispOn := Reg.of 1 } ∧
      s'.fb = s.fb) ∧
    (s.host = .req (hostWord 4 arg) :: rest → ∃ s', run 3 s = .next s' ∧ s'.busy = false ∧ s'.status = .ok ∧
      s'.lc = .active ∧ s'.calls = s.calls ++ [okCall (.wc 0x81), okCall (.wc arg)] ∧
      s'.t = { s.t with contrast := Reg.of arg } ∧ s'.fb = s.fb) ∧
    (s.host = .req (hostWord 5 arg) :: rest → ∃ s', run 2 s = .next s' ∧ s'.busy = false ∧ s'.status = .ok ∧
      s'.lc = .active ∧ s'.calls = s.calls ++ [okCall (.wc (0xA6 ||| (arg &&& 1)))] ∧
      s'.t = { s.t with invert := Reg.of (arg.extractLsb' 0 1) } ∧ s'.fb = s.fb)

/-- `set_invert 1` then `set_invert 0` leaves the shadow as it was when the display was not inverted before (R189). The
answers stand in the model's list (log 3). -/
def Obligations.InvertTwiceIsNoInvert : Prop :=
  ∀ (s : State) (rest : List HostMove) (more : List Answer),
    mayDispatch s → s.lc = .active → s.host = .req 0x501 :: .req 0x500 :: rest →
    s.script = .ok :: .ok :: more → s.t.fault = false → s.t.pending = none → s.t.invert = Reg.of 0 →
    ∃ s', run 4 s = .next s' ∧ s'.t = s.t ∧ s'.status = .ok ∧
      s'.calls = s.calls ++ [okCall (.wc 0xA7), okCall (.wc 0xA6)]

/-- Two shows with an unchanged frame buffer send the identical stream both times, and that stream is a function of
cfg and of FB alone (R75). The answers stand in the model's list (log 3). -/
def Obligations.ShowIsIdempotent : Prop :=
  ∀ (s : State) (arg arg' : Byte) (rest : List HostMove) (more : List Answer),
    mayDispatch s → s.lc = .active →
    s.host = .req (hostWord 1 arg) :: .req (hostWord 1 arg') :: rest → fbFull s.cfg s.fb →
    s.script = List.replicate (8 * pages s.cfg) .ok ++ more →
    ∃ s₁ s₂, run (1 + 4 * pages s.cfg) s = .next s₁ ∧ run (1 + 4 * pages s.cfg) s₁ = .next s₂ ∧
      s₁.calls = s.calls ++ (frameCalls s.cfg s.fb).map okCall ∧
      s₂.calls = s₁.calls ++ (frameCalls s.cfg s.fb).map okCall ∧
      (frameCalls s.cfg s.fb).length = 4 * pages s.cfg

/-- A BusError inside a two-byte command desynchronises the command stream (the hazard of 70_reset_and_hazards.md): a
`set_contrast` that fails at its second byte, that byte not received, leaves the parameter awaited, and the
byte of the `power_on` that follows is taken as the contrast, the display staying as it was. The answers stand
in the model's list (log 3). -/
def Obligations.FailedContrastSwallowsTheNextByte : Prop :=
  ∀ (s : State) (value arg : Byte) (sent : Nat) (rest : List HostMove) (more : List Answer),
    mayDispatch s → s.lc = .active → s.t.fault = false → s.t.pending = none →
    s.host = .req (hostWord 4 value) :: .req (hostWord 3 arg) :: rest →
    s.script = .ok :: .fail sent 0 :: .ok :: more →
    ∃ s₁ s₂, run 3 s = .next s₁ ∧ s₁.status = .busError ∧ s₁.errSeq = .tog 1 ∧ s₁.lc = .active ∧ s₁.busy = false ∧
      s₁.t = { s.t with pending := some .contrast } ∧
      run 2 s₁ = .next s₂ ∧ s₂.status = .ok ∧ s₂.busy = false ∧ s₂.t = { s.t with contrast := Reg.of 0xAF }
end

