-- ==== Sys2Proof/Laws/Memory.lean ====
section
/-! SUPPORT. The laws of memory: a read after a write, and that every operation keeps the canonical form. -/

namespace Sys2Proof.Machine

@[simp] theorem read_nil (a : Nat) : Memory.read [] a = none := rfl

/-- A byte reads as what was last written to it; every other byte is as it was. -/
theorem read_write (m : Memory) (a : Nat) (v : Byte) (b : Nat) :
    Memory.read (Memory.write m a v) b = if b = a then some v else Memory.read m b := by
  induction m with
  | nil => simp [Memory.write, Memory.read, eq_comm]
  | cons x m ih =>
    obtain ⟨k, w⟩ := x
    by_cases h₁ : a < k
    · simp [Memory.write, h₁, Memory.read, eq_comm]
    · by_cases h₂ : a = k
      · subst h₂
        by_cases hb : b = a
        · simp [Memory.write, Memory.read, hb]
        · simp [Memory.write, Memory.read, hb, Ne.symm hb]
      · by_cases hb : k = b
        · subst hb; simp [Memory.write, h₁, h₂, Memory.read, Ne.symm h₂]
        · simp [Memory.write, h₁, h₂, Memory.read, ih, hb]

@[simp] theorem read_write_same (m : Memory) (a : Nat) (v : Byte) :
    Memory.read (Memory.write m a v) a = some v := by simp [read_write]

theorem read_write_other (m : Memory) {a b : Nat} (v : Byte) (h : b ≠ a) :
    Memory.read (Memory.write m a v) b = Memory.read m b := by simp [read_write, h]

/-- A write lists no new address but its own. -/
theorem mem_write {m : Memory} {a : Nat} {v : Byte} {x : Host.Cell} (h : x ∈ Memory.write m a v) :
    x = (a, v) ∨ x ∈ m := by
  induction m with
  | nil => simpa [Memory.write] using h
  | cons y m ih =>
    obtain ⟨k, w⟩ := y
    unfold Memory.write at h
    split at h
    · simpa using h
    · split at h
      · rcases List.mem_cons.mp h with h | h <;> simp [h]
      · rcases List.mem_cons.mp h with h | h
        · simp [h]
        · rcases ih h with h | h <;> simp [h]

/-- A write keeps the canonical form. -/
theorem write_wf {m : Memory} (h : m.wf) (a : Nat) (v : Byte) : (Memory.write m a v).wf := by
  induction m with
  | nil => simp [Memory.write, Memory.wf]
  | cons y m ih =>
    obtain ⟨k, w⟩ := y
    have hm := List.pairwise_cons.mp h
    unfold Memory.write
    split
    · rename_i hlt
      refine List.pairwise_cons.mpr ⟨fun x hx => ?_, h⟩
      rcases List.mem_cons.mp hx with rfl | hx
      · exact hlt
      · exact lt_trans hlt (hm.1 x hx)
    · split
      · rename_i heq; subst heq
        exact List.pairwise_cons.mpr ⟨hm.1, hm.2⟩
      · refine List.pairwise_cons.mpr ⟨fun x hx => ?_, ih hm.2⟩
        rcases mem_write hx with rfl | hx
        · dsimp only; omega
        · exact hm.1 x hx

/-- A write to an address that satisfies `P` keeps every listed address satisfying `P`. -/
theorem write_inside {m : Memory} {a n : Nat} (v : Byte) (ha : a < n) (h : ∀ x ∈ m, x.1 < n) :
    ∀ x ∈ Memory.write m a v, x.1 < n := by
  intro x hx
  rcases mem_write hx with rfl | hx
  · exact ha
  · exact h x hx

theorem zero_succ (m : Memory) (n : Nat) :
    Memory.zero m (n + 1) = Memory.write (Memory.zero m n) n 0x00 := by
  simp [Memory.zero, List.range_succ]

/-- After zeroing, every byte below the bound is zero, and every other is as it was. -/
theorem read_zero (m : Memory) (n a : Nat) :
    Memory.read (Memory.zero m n) a = if a < n then some 0x00 else Memory.read m a := by
  induction n with
  | zero => simp [Memory.zero]
  | succ n ih =>
    rw [zero_succ, read_write, ih]
    by_cases h : a = n
    · subst h; simp
    · by_cases h' : a < n
      · simp [h, h', Nat.lt_succ_of_lt h']
      · simp [h, h', show ¬ a < n + 1 by omega]

/-- Zeroing keeps the canonical form. -/
theorem zero_wf {m : Memory} (h : m.wf) (n : Nat) : (Memory.zero m n).wf := by
  induction n with
  | zero => simpa [Memory.zero] using h
  | succ n ih => rw [zero_succ]; exact write_wf ih n 0x00

theorem zero_inside {m : Memory} {n k : Nat} (hk : n ≤ k) (h : ∀ x ∈ m, x.1 < k) :
    ∀ x ∈ Memory.zero m n, x.1 < k := by
  induction n with
  | zero => simpa [Memory.zero] using h
  | succ n ih => rw [zero_succ]; exact write_inside 0x00 (by omega) (ih (by omega))

/-- The memories of the machine after reset are in canonical form. -/
theorem reset_memories_wf (c : Cfg) : (State.resetOf c).fb.wf ∧ (State.resetOf c).t.gram.wf :=
  ⟨List.Pairwise.nil, List.Pairwise.nil⟩

end Sys2Proof.Machine
end

