-- ==== Sys2Proof/Laws/Shadow.lean ====
section
/-! SUPPORT. What the shadow's operations can do: one lemma per operation, cited instead of unfolding it. -/

namespace Sys2Proof.Machine

/-- The instructions a one-byte command can be. -/
def isOneByte : Instr → Bool
  | .cColLow _ | .cColHigh _ | .cStartLine _ | .cSegRemap _ | .cEntireOn | .cNormInv _ | .cDisp _ | .cPage _
  | .cComScan _ => true
  | .cAddrMode _ | .cContrast _ | .cChargePump _ | .cMuxRatio _ | .cDispOffset _ | .cClkDiv _ | .cPrecharge _
  | .cComPins _ | .cVcomDesel _ => false
  | .hInit _ | .hShow _ | .hPowerOff _ | .hPowerOn _ | .hSetContrast _ | .hSetInvert _ | .hReserved _ _ => false
  | .i2cCtrlCmd _ | .i2cCtrlData _ => false

/-- A command byte that is a whole instruction is one of the one-byte commands. -/
theorem classify_one {b : Byte} {i : Instr} (h : classify b = .one i) : isOneByte i = true := by
  have key : ∀ b : Byte, (match classify b with | .one i => isOneByte i | _ => true) = true := by decide
  simpa [h] using key b

/-- A command byte that begins a two-byte command is that command's byte. -/
theorem classify_two {b : Byte} {m : TwoByte} (h : classify b = .two m) : b = commandByte m := by
  have key : ∀ b : Byte, (match classify b with | .two m => decide (b = commandByte m) | _ => true) = true := by
    decide
  simpa [h] using key b

@[simp] theorem classify_commandByte (m : TwoByte) : classify (commandByte m) = .two m := by
  cases m <;> decide

/-- Everything a byte of the command stream can do (R139). -/
theorem recvCmd_cases (b : Byte) (t : Target) :
    (t.fault = true ∧ recvCmd b t = t) ∨
    (t.fault = false ∧ ∃ m, t.pending = some m ∧ recvCmd b t = takeParam m b t) ∨
    (t.fault = false ∧ t.pending = none ∧ ∃ i, classify b = .one i ∧ recvCmd b t = shadowExec i t) ∨
    (t.fault = false ∧ t.pending = none ∧ ∃ m, classify b = .two m ∧ recvCmd b t = { t with pending := some m }) ∨
    (t.fault = false ∧ t.pending = none ∧ classify b = .unmapped ∧ recvCmd b t = { t with fault := true }) := by
  cases hf : t.fault
  · cases hp : t.pending with
    | some m =>
      refine .inr (.inl ⟨rfl, m, rfl, ?_⟩)
      cases m <;> simp [recvCmd, fetch, hf, hp, withParam, shadowExec, unlessFault]
    | none =>
      cases hc : classify b <;> simp [recvCmd, fetch, hf, hp, hc]
  · simp [recvCmd, fetch, hf]

/-- A parameter that arrives is taken, whatever its value. -/
theorem recvCmd_param (b : Byte) {m : TwoByte} {t : Target} (hf : t.fault = false) (hp : t.pending = some m) :
    recvCmd b t = takeParam m b t := by
  rcases recvCmd_cases b t with h | ⟨_, m', hp', h⟩ | h | h | h <;> simp_all

/-- A one-byte command that arrives at a shadow in step is executed. -/
theorem recvCmd_one {b : Byte} {i : Instr} (h : classify b = .one i) {t : Target} (hf : t.fault = false)
    (hp : t.pending = none) : recvCmd b t = shadowExec i t := by
  simp [recvCmd, fetch, hf, hp, h]

/-- The first byte of a two-byte command that arrives at a shadow in step is remembered. -/
theorem recvCmd_two {b : Byte} {m : TwoByte} (h : classify b = .two m) {t : Target} (hf : t.fault = false)
    (hp : t.pending = none) : recvCmd b t = { t with pending := some m } := by
  simp [recvCmd, fetch, hf, hp, h]

/-- Everything a data byte can do (R160). -/
theorem recvData_cases (v : Byte) (t : Target) :
    (t.fault = true ∧ recvData v t = t) ∨
    (t.fault = false ∧ recvData v t = { t with fault := true } ∧
      (t.pending ≠ none ∨ pageValue t = none ∨ colValue t = none ∨ ∃ c, colValue t = some c ∧ 131 < c.toNat)) ∨
    (t.fault = false ∧ t.pending = none ∧ ∃ p c, pageValue t = some p ∧ colValue t = some c ∧ c.toNat ≤ 131 ∧
      recvData v t = setCol (c + 1) { t with gram := Memory.write t.gram (gramKey p.toNat c.toNat) v }) := by
  cases hf : t.fault
  · by_cases hp : t.pending = none
    · cases hpg : pageValue t with
      | none => simp [recvData, hf, hp, hpg]
      | some p =>
        cases hc : colValue t with
        | none => simp [recvData, hf, hp, hpg, hc]
        | some c =>
          by_cases h : 131 < c.toNat
          · simp [recvData, hf, hp, hpg, hc, h]
          · simp [recvData, hf, hp, hpg, hc, h, not_lt.mp h]
    · simp [recvData, hf, hp]
  · simp [recvData, hf]

@[simp] theorem takeParam_keeps (m : TwoByte) (b : Byte) (t : Target) :
    (takeParam m b t).gram = t.gram ∧ (takeParam m b t).page = t.page ∧ (takeParam m b t).colHi = t.colHi ∧
    (takeParam m b t).colLo = t.colLo ∧ (takeParam m b t).fault = t.fault ∧ (takeParam m b t).pending = none := by
  cases m <;> simp [takeParam, setParam]

/-- A one-byte command leaves GRAM, the pending marker and the fault as they are, and takes no pointer's value
away. -/
theorem shadowExec_keeps {i : Instr} (h : isOneByte i = true) (t : Target) :
    (shadowExec i t).gram = t.gram ∧ (shadowExec i t).pending = t.pending ∧ (shadowExec i t).fault = t.fault ∧
    (t.page.has = true → (shadowExec i t).page.has = true) := by
  cases i <;> simp_all [isOneByte, shadowExec, unlessFault] <;> split <;>
    simp_all [setColLow, setColHigh, setPage, setStartLine, setSegRemap, followRam, setInvert, setDisp, setComScan,
      Reg.of]

/-- Once `T.fault` is set nothing is taken in. -/
@[simp] theorem recvCmd_of_fault (b : Byte) {t : Target} (h : t.fault = true) : recvCmd b t = t := by
  rcases recvCmd_cases b t with h' | h' | h' | h' | h' <;> simp_all

@[simp] theorem recvData_of_fault (v : Byte) {t : Target} (h : t.fault = true) : recvData v t = t := by
  simp [recvData, h]

@[simp] theorem recvDatas_nil (t : Target) : recvDatas [] t = t := rfl

@[simp] theorem recvDatas_cons (v : Byte) (bs : List Byte) (t : Target) :
    recvDatas (v :: bs) t = recvDatas bs (recvData v t) := rfl

@[simp] theorem recvDatas_of_fault (bs : List Byte) {t : Target} (h : t.fault = true) : recvDatas bs t = t := by
  induction bs with
  | nil => rfl
  | cons v bs ih => simp [h, ih]

/-- No byte of the command stream writes GRAM (R37). -/
@[simp] theorem recvCmd_gram (b : Byte) (t : Target) : (recvCmd b t).gram = t.gram := by
  rcases recvCmd_cases b t with ⟨_, h⟩ | ⟨_, m, _, h⟩ | ⟨_, _, i, hi, h⟩ | ⟨_, _, m, _, h⟩ | ⟨_, _, _, h⟩ <;> rw [h]
  · exact (takeParam_keeps m b t).1
  · exact (shadowExec_keeps (classify_one hi) t).1

/-- No byte takes the value of the page pointer away. -/
theorem recvCmd_page_has (b : Byte) {t : Target} (hp : t.page.has = true) : (recvCmd b t).page.has = true := by
  rcases recvCmd_cases b t with ⟨_, h⟩ | ⟨_, m, _, h⟩ | ⟨_, _, i, hi, h⟩ | ⟨_, _, m, _, h⟩ | ⟨_, _, _, h⟩ <;> rw [h]
  · exact hp
  · simpa using hp
  · exact (shadowExec_keeps (classify_one hi) t).2.2.2 hp
  · exact hp
  · exact hp

/-- A data byte leaves everything but GRAM, the column and the fault as it is. -/
theorem recvData_keeps (v : Byte) (t : Target) :
    (recvData v t).page = t.page ∧ (recvData v t).pending = t.pending := by
  rcases recvData_cases v t with ⟨_, h⟩ | ⟨_, h, _⟩ | ⟨_, _, p, c, _, _, _, h⟩ <;> rw [h] <;> simp [setCol]

theorem recvDatas_keeps (bs : List Byte) (t : Target) :
    (recvDatas bs t).page = t.page ∧ (recvDatas bs t).pending = t.pending := by
  induction bs generalizing t with
  | nil => simp
  | cons v bs ih => simp [ih, recvData_keeps]

/-- A property of GRAM that holds of it and of every store inside it holds after any data byte. -/
theorem recvData_gram {P : Memory → Prop} (v : Byte) {t : Target} (h : P t.gram)
    (hw : ∀ (p : BitVec 3) (c : Byte), c.toNat ≤ 131 → P (Memory.write t.gram (gramKey p.toNat c.toNat) v)) :
    P (recvData v t).gram := by
  rcases recvData_cases v t with ⟨_, h'⟩ | ⟨_, h', _⟩ | ⟨_, _, p, c, _, _, hc, h'⟩ <;> rw [h']
  · exact h
  · exact h
  · exact hw p c hc

theorem recvData_gram_wf (v : Byte) {t : Target} (h : t.gram.wf) : (recvData v t).gram.wf :=
  recvData_gram v h fun _ _ _ => write_wf h _ v

theorem gramKey_inside (p : BitVec 3) {c : Byte} (h : c.toNat ≤ 131) : gramKey p.toNat c.toNat < 8 * gramW := by
  have := p.isLt
  simp only [gramKey, gramW] at *
  omega

theorem recvData_gram_inside (v : Byte) {t : Target} (h : ∀ x ∈ t.gram, x.1 < 8 * gramW) :
    ∀ x ∈ (recvData v t).gram, x.1 < 8 * gramW :=
  recvData_gram (P := fun m => ∀ x ∈ m, x.1 < 8 * gramW) v h
    fun p _ hc => write_inside v (gramKey_inside p hc) h

/-- What the transactions and parts of transactions of the engine keep: the canonical GRAM, inside its bounds. -/
theorem recvDatas_gram_ok (bs : List Byte) {t : Target} (h : t.gram.wf ∧ ∀ x ∈ t.gram, x.1 < 8 * gramW) :
    (recvDatas bs t).gram.wf ∧ ∀ x ∈ (recvDatas bs t).gram, x.1 < 8 * gramW := by
  induction bs generalizing t with
  | nil => exact h
  | cons v bs ih => exact ih ⟨recvData_gram_wf v h.1, recvData_gram_inside v h.2⟩

theorem recvCall_gram_ok (c : Call) {t : Target} (h : t.gram.wf ∧ ∀ x ∈ t.gram, x.1 < 8 * gramW) :
    (recvCall c t).gram.wf ∧ ∀ x ∈ (recvCall c t).gram, x.1 < 8 * gramW := by
  cases c with
  | wc b => simpa [recvCall] using h
  | wd bs => exact recvDatas_gram_ok bs h

theorem recvPart_gram_ok (c : Call) (k : Nat) {t : Target} (h : t.gram.wf ∧ ∀ x ∈ t.gram, x.1 < 8 * gramW) :
    (recvPart c k t).gram.wf ∧ ∀ x ∈ (recvPart c k t).gram, x.1 < 8 * gramW := by
  cases c with
  | wc b =>
    simp only [recvPart]
    split
    · exact h
    · simpa using h
  | wd bs => exact recvDatas_gram_ok _ h

end Sys2Proof.Machine
end

