-- ==== Sys2Proof/Laws/State.lean ====
section
/-! SUPPORT. What each update of the state leaves in each field: one conjunction per update, each part a rewrite
rule, so that no later proof unfolds a record update. -/

namespace Sys2Proof.Machine

@[simp] theorem emit_fields (es : List WireEvent) (s : State) :
    (emit es s).cfg = s.cfg ∧ (emit es s).lc = s.lc ∧ (emit es s).busy = s.busy ∧ (emit es s).op = s.op ∧
    (emit es s).arg = s.arg ∧ (emit es s).coloff = s.coloff ∧ (emit es s).seq = s.seq ∧
    (emit es s).status = s.status ∧ (emit es s).cfgWarn = s.cfgWarn ∧ (emit es s).errSeq = s.errSeq ∧
    (emit es s).fb = s.fb ∧ (emit es s).tr = s.tr ∧ (emit es s).lines = es.foldl Lines.drive s.lines ∧
    (emit es s).t = s.t ∧ (emit es s).calls = s.calls ∧ (emit es s).wire = s.wire ++ es ∧
    (emit es s).host = s.host ∧ (emit es s).tin = s.tin ∧ (emit es s).script = s.script ∧
    (emit es s).drawn = s.drawn ∧ (emit es s).ended = s.ended :=
  ⟨rfl, rfl, rfl, rfl, rfl, rfl, rfl, rfl, rfl, rfl, rfl, rfl, rfl, rfl, rfl, rfl, rfl, rfl, rfl, rfl, rfl⟩

@[simp] theorem logCall_fields (c : Call) (ok : Bool) (s : State) :
    (logCall c ok s).cfg = s.cfg ∧ (logCall c ok s).lc = s.lc ∧ (logCall c ok s).busy = s.busy ∧
    (logCall c ok s).op = s.op ∧ (logCall c ok s).arg = s.arg ∧ (logCall c ok s).coloff = s.coloff ∧
    (logCall c ok s).seq = s.seq ∧ (logCall c ok s).status = s.status ∧ (logCall c ok s).cfgWarn = s.cfgWarn ∧
    (logCall c ok s).errSeq = s.errSeq ∧ (logCall c ok s).fb = s.fb ∧ (logCall c ok s).tr = s.tr ∧
    (logCall c ok s).lines = s.lines ∧ (logCall c ok s).t = s.t ∧
    (logCall c ok s).calls = s.calls ++ [{ call := c, ok := ok }] ∧ (logCall c ok s).wire = s.wire ∧
    (logCall c ok s).host = s.host ∧ (logCall c ok s).tin = s.tin ∧ (logCall c ok s).script = s.script ∧
    (logCall c ok s).drawn = s.drawn ∧ (logCall c ok s).ended = s.ended :=
  ⟨rfl, rfl, rfl, rfl, rfl, rfl, rfl, rfl, rfl, rfl, rfl, rfl, rfl, rfl, rfl, rfl, rfl, rfl, rfl, rfl, rfl⟩

@[simp] theorem raiseBusError_fields (q : Seq) (s : State) :
    (raiseBusError q s).cfg = s.cfg ∧ (raiseBusError q s).lc = (if s.op = 0 then .uninitialized else s.lc) ∧
    (raiseBusError q s).busy = false ∧ (raiseBusError q s).op = s.op ∧ (raiseBusError q s).arg = s.arg ∧
    (raiseBusError q s).coloff = s.coloff ∧ (raiseBusError q s).seq = .idle ∧
    (raiseBusError q s).status = .busError ∧ (raiseBusError q s).cfgWarn = s.cfgWarn ∧
    (raiseBusError q s).errSeq = q ∧ (raiseBusError q s).fb = s.fb ∧ (raiseBusError q s).tr = s.tr ∧
    (raiseBusError q s).lines = s.lines ∧ (raiseBusError q s).t = s.t ∧ (raiseBusError q s).calls = s.calls ∧
    (raiseBusError q s).wire = s.wire ∧ (raiseBusError q s).host = s.host ∧ (raiseBusError q s).tin = s.tin ∧
    (raiseBusError q s).script = s.script ∧ (raiseBusError q s).drawn = s.drawn ∧
    (raiseBusError q s).ended = s.ended :=
  ⟨rfl, rfl, rfl, rfl, rfl, rfl, rfl, rfl, rfl, rfl, rfl, rfl, rfl, rfl, rfl, rfl, rfl, rfl, rfl, rfl, rfl⟩

@[simp] theorem overwriteErrSeq_fields (s : State) :
    (overwriteErrSeq s).cfg = s.cfg ∧ (overwriteErrSeq s).lc = s.lc ∧ (overwriteErrSeq s).busy = s.busy ∧
    (overwriteErrSeq s).op = s.op ∧ (overwriteErrSeq s).arg = s.arg ∧ (overwriteErrSeq s).coloff = s.coloff ∧
    (overwriteErrSeq s).seq = s.seq ∧ (overwriteErrSeq s).status = s.status ∧
    (overwriteErrSeq s).cfgWarn = s.cfgWarn ∧ (overwriteErrSeq s).errSeq = Config.freeErrSeq s.ended ∧
    (overwriteErrSeq s).fb = s.fb ∧ (overwriteErrSeq s).tr = s.tr ∧ (overwriteErrSeq s).lines = s.lines ∧
    (overwriteErrSeq s).t = s.t ∧ (overwriteErrSeq s).calls = s.calls ∧ (overwriteErrSeq s).wire = s.wire ∧
    (overwriteErrSeq s).host = s.host ∧ (overwriteErrSeq s).tin = s.tin ∧ (overwriteErrSeq s).script = s.script ∧
    (overwriteErrSeq s).drawn = s.drawn ∧ (overwriteErrSeq s).ended = s.ended + 1 :=
  ⟨rfl, rfl, rfl, rfl, rfl, rfl, rfl, rfl, rfl, rfl, rfl, rfl, rfl, rfl, rfl, rfl, rfl, rfl, rfl, rfl, rfl⟩

@[simp] theorem raiseRejected_fields (s : State) :
    (raiseRejected s).cfg = s.cfg ∧ (raiseRejected s).lc = s.lc ∧ (raiseRejected s).busy = s.busy ∧
    (raiseRejected s).op = s.op ∧ (raiseRejected s).arg = s.arg ∧ (raiseRejected s).coloff = s.coloff ∧
    (raiseRejected s).seq = s.seq ∧ (raiseRejected s).status = .rejected ∧ (raiseRejected s).cfgWarn = s.cfgWarn ∧
    (raiseRejected s).errSeq = Config.freeErrSeq s.ended ∧ (raiseRejected s).fb = s.fb ∧
    (raiseRejected s).tr = s.tr ∧ (raiseRejected s).lines = s.lines ∧ (raiseRejected s).t = s.t ∧
    (raiseRejected s).calls = s.calls ∧ (raiseRejected s).wire = s.wire ∧ (raiseRejected s).host = s.host ∧
    (raiseRejected s).tin = s.tin ∧ (raiseRejected s).script = s.script ∧ (raiseRejected s).drawn = s.drawn ∧
    (raiseRejected s).ended = s.ended + 1 :=
  ⟨rfl, rfl, rfl, rfl, rfl, rfl, rfl, rfl, rfl, rfl, rfl, rfl, rfl, rfl, rfl, rfl, rfl, rfl, rfl, rfl, rfl⟩

@[simp] theorem complete_fields (s : State) :
    (complete s).cfg = s.cfg ∧ (complete s).lc = (if s.op = 0 then .active else s.lc) ∧
    (complete s).busy = false ∧ (complete s).op = s.op ∧ (complete s).arg = s.arg ∧
    (complete s).coloff = s.coloff ∧ (complete s).seq = .idle ∧ (complete s).status = .ok ∧
    (complete s).cfgWarn = s.cfgWarn ∧ (complete s).errSeq = Config.freeErrSeq s.ended ∧ (complete s).fb = s.fb ∧
    (complete s).tr = s.tr ∧ (complete s).lines = s.lines ∧ (complete s).t = s.t ∧
    (complete s).calls = s.calls ∧ (complete s).wire = s.wire ∧ (complete s).host = s.host ∧
    (complete s).tin = s.tin ∧ (complete s).script = s.script ∧ (complete s).drawn = s.drawn ∧
    (complete s).ended = s.ended + 1 :=
  ⟨rfl, rfl, rfl, rfl, rfl, rfl, rfl, rfl, rfl, rfl, rfl, rfl, rfl, rfl, rfl, rfl, rfl, rfl, rfl, rfl, rfl⟩

@[simp] theorem latch_fields (op : BitVec 3) (arg : Byte) (s : State) :
    (latch op arg s).cfg = s.cfg ∧ (latch op arg s).lc = s.lc ∧ (latch op arg s).busy = true ∧
    (latch op arg s).op = op ∧ (latch op arg s).arg = arg ∧ (latch op arg s).coloff = s.coloff ∧
    (latch op arg s).seq = s.seq ∧ (latch op arg s).status = s.status ∧ (latch op arg s).cfgWarn = s.cfgWarn ∧
    (latch op arg s).errSeq = s.errSeq ∧ (latch op arg s).fb = s.fb ∧ (latch op arg s).tr = s.tr ∧
    (latch op arg s).lines = s.lines ∧ (latch op arg s).t = s.t ∧ (latch op arg s).calls = s.calls ∧
    (latch op arg s).wire = s.wire ∧ (latch op arg s).host = s.host ∧ (latch op arg s).tin = s.tin ∧
    (latch op arg s).script = s.script ∧ (latch op arg s).drawn = s.drawn ∧ (latch op arg s).ended = s.ended :=
  ⟨rfl, rfl, rfl, rfl, rfl, rfl, rfl, rfl, rfl, rfl, rfl, rfl, rfl, rfl, rfl, rfl, rfl, rfl, rfl, rfl, rfl⟩

@[simp] theorem initEntry_fields (s : State) :
    (initEntry s).cfg = s.cfg ∧ (initEntry s).lc = .initializing ∧ (initEntry s).busy = s.busy ∧
    (initEntry s).op = s.op ∧ (initEntry s).arg = s.arg ∧ (initEntry s).coloff = s.coloff ∧
    (initEntry s).seq = .rom 0 ∧ (initEntry s).status = s.status ∧
    (initEntry s).cfgWarn = warnAfter s.cfg s.cfgWarn ∧ (initEntry s).errSeq = s.errSeq ∧
    (initEntry s).fb = s.fb ∧ (initEntry s).tr = s.tr ∧ (initEntry s).lines = s.lines ∧ (initEntry s).t = s.t ∧
    (initEntry s).calls = s.calls ∧ (initEntry s).wire = s.wire ∧ (initEntry s).host = s.host ∧
    (initEntry s).tin = s.tin ∧ (initEntry s).script = s.script ∧ (initEntry s).drawn = s.drawn ∧
    (initEntry s).ended = s.ended :=
  ⟨rfl, rfl, rfl, rfl, rfl, rfl, rfl, rfl, rfl, rfl, rfl, rfl, rfl, rfl, rfl, rfl, rfl, rfl, rfl, rfl, rfl⟩

@[simp] theorem togEntry_fields (s : State) :
    (togEntry s).cfg = s.cfg ∧ (togEntry s).lc = s.lc ∧ (togEntry s).busy = s.busy ∧ (togEntry s).op = s.op ∧
    (togEntry s).arg = s.arg ∧ (togEntry s).coloff = s.coloff ∧ (togEntry s).seq = .tog 0 ∧
    (togEntry s).status = s.status ∧ (togEntry s).cfgWarn = s.cfgWarn ∧ (togEntry s).errSeq = s.errSeq ∧
    (togEntry s).fb = s.fb ∧ (togEntry s).tr = s.tr ∧ (togEntry s).lines = s.lines ∧ (togEntry s).t = s.t ∧
    (togEntry s).calls = s.calls ∧ (togEntry s).wire = s.wire ∧ (togEntry s).host = s.host ∧
    (togEntry s).tin = s.tin ∧ (togEntry s).script = s.script ∧ (togEntry s).drawn = s.drawn ∧
    (togEntry s).ended = s.ended :=
  ⟨rfl, rfl, rfl, rfl, rfl, rfl, rfl, rfl, rfl, rfl, rfl, rfl, rfl, rfl, rfl, rfl, rfl, rfl, rfl, rfl, rfl⟩

@[simp] theorem answerTaken_fields (s : State) :
    (answerTaken s).cfg = s.cfg ∧ (answerTaken s).lc = s.lc ∧ (answerTaken s).busy = s.busy ∧
    (answerTaken s).op = s.op ∧ (answerTaken s).arg = s.arg ∧ (answerTaken s).coloff = s.coloff ∧
    (answerTaken s).seq = s.seq ∧ (answerTaken s).status = s.status ∧ (answerTaken s).cfgWarn = s.cfgWarn ∧
    (answerTaken s).errSeq = s.errSeq ∧ (answerTaken s).fb = s.fb ∧ (answerTaken s).tr = s.tr ∧
    (answerTaken s).lines = s.lines ∧ (answerTaken s).t = s.t ∧ (answerTaken s).calls = s.calls ∧
    (answerTaken s).wire = s.wire ∧ (answerTaken s).host = s.host ∧ (answerTaken s).tin = s.tin ∧
    (answerTaken s).ended = s.ended :=
  by unfold answerTaken; split <;> simp

@[simp] theorem showEntry_fields (s : State) :
    (showEntry s).cfg = s.cfg ∧ (showEntry s).op = s.op ∧ (showEntry s).arg = s.arg ∧
    (showEntry s).coloff = colOffset s.cfg ∧ (showEntry s).cfgWarn = s.cfgWarn ∧
    (showEntry s).fb = s.fb ∧ (showEntry s).tr = s.tr ∧
    (showEntry s).lines = s.lines ∧ (showEntry s).t = s.t ∧ (showEntry s).calls = s.calls ∧
    (showEntry s).wire = s.wire ∧ (showEntry s).host = s.host ∧ (showEntry s).tin = s.tin ∧
    (showEntry s).script = s.script ∧ (showEntry s).drawn = s.drawn :=
  by unfold showEntry; dsimp only; split <;> simp

@[simp] theorem transferOk_fields (c : Call) (s : State) :
    (transferOk c s).cfg = s.cfg ∧ (transferOk c s).lc = s.lc ∧ (transferOk c s).busy = s.busy ∧
    (transferOk c s).op = s.op ∧ (transferOk c s).arg = s.arg ∧ (transferOk c s).coloff = s.coloff ∧
    (transferOk c s).seq = s.seq ∧ (transferOk c s).status = s.status ∧ (transferOk c s).cfgWarn = s.cfgWarn ∧
    (transferOk c s).errSeq = s.errSeq ∧ (transferOk c s).fb = s.fb ∧ (transferOk c s).tr = s.tr ∧
    (transferOk c s).host = s.host ∧ (transferOk c s).tin = s.tin ∧ (transferOk c s).script = s.script ∧
    (transferOk c s).drawn = s.drawn ∧ (transferOk c s).ended = s.ended :=
  by simp [transferOk]

@[simp] theorem transferFail_fields (c : Call) (n k : Nat) (s : State) :
    (transferFail c n k s).cfg = s.cfg ∧ (transferFail c n k s).lc = s.lc ∧
    (transferFail c n k s).busy = s.busy ∧ (transferFail c n k s).op = s.op ∧
    (transferFail c n k s).arg = s.arg ∧ (transferFail c n k s).coloff = s.coloff ∧
    (transferFail c n k s).seq = s.seq ∧ (transferFail c n k s).status = s.status ∧
    (transferFail c n k s).cfgWarn = s.cfgWarn ∧ (transferFail c n k s).errSeq = s.errSeq ∧
    (transferFail c n k s).fb = s.fb ∧ (transferFail c n k s).tr = s.tr ∧
    (transferFail c n k s).host = s.host ∧ (transferFail c n k s).tin = s.tin ∧
    (transferFail c n k s).script = s.script ∧ (transferFail c n k s).drawn = s.drawn ∧
    (transferFail c n k s).ended = s.ended :=
  by simp [transferFail]

@[simp] theorem advance_fields (s : State) :
    (advance s).cfg = s.cfg ∧ (advance s).op = s.op ∧ (advance s).arg = s.arg ∧ (advance s).coloff = s.coloff ∧
    (advance s).cfgWarn = s.cfgWarn ∧ (advance s).fb = s.fb ∧
    (advance s).tr = s.tr ∧ (advance s).lines = s.lines ∧ (advance s).t = s.t ∧ (advance s).calls = s.calls ∧
    (advance s).wire = s.wire ∧ (advance s).host = s.host ∧ (advance s).tin = s.tin ∧
    (advance s).script = s.script ∧ (advance s).drawn = s.drawn :=
  by unfold advance; split <;> simp

@[simp] theorem pulse_fields (s : State) :
    (pulse s).cfg = s.cfg ∧ (pulse s).lc = s.lc ∧ (pulse s).busy = s.busy ∧ (pulse s).op = s.op ∧
    (pulse s).arg = s.arg ∧ (pulse s).coloff = s.coloff ∧ (pulse s).seq = s.seq ∧ (pulse s).status = s.status ∧
    (pulse s).cfgWarn = s.cfgWarn ∧ (pulse s).errSeq = s.errSeq ∧ (pulse s).fb = s.fb ∧ (pulse s).t = s.t ∧
    (pulse s).calls = s.calls ∧ (pulse s).host = s.host ∧ (pulse s).tin = s.tin ∧ (pulse s).script = s.script ∧
    (pulse s).drawn = s.drawn ∧ (pulse s).ended = s.ended :=
  by unfold pulse; split <;> simp

end Sys2Proof.Machine
end

