-- ==== Sys2Proof/Laws/Adapter.lean ====
section
/-! SUPPORT. What the adapter's operations do: the lines and the hearing of a run of wire events, and one
transaction. -/

namespace Sys2Proof.Machine

/-- Bytes move no line. -/
@[simp] theorem drive_tx (bs : List Byte) (l : Lines) : (bs.map WireEvent.tx).foldl Lines.drive l = l := by
  induction bs with
  | nil => rfl
  | cons b bs ih => simpa [Lines.drive] using ih

/-- What is heard of two runs of events, the second with the lines the first leaves. -/
theorem hear_append (addr : BitVec 7) (es fs : List WireEvent) (l : Lines) (t : Target) :
    hear addr (es ++ fs) l t = hear addr fs (es.foldl Lines.drive l) (hear addr es l t) := by
  induction es generalizing l t with
  | nil => rfl
  | cons e es ih => simp [hear, ih]

/-- Bytes sent to a selected target: `DC` tells which entry point takes them (R223). -/
theorem hear_tx (addr : BitVec 7) (bs : List Byte) {l : Lines} (t : Target) (h : l.cs = false) :
    hear addr (bs.map WireEvent.tx) l t =
      if l.dc then recvDatas bs t else bs.foldl (fun t b => recvCmd b t) t := by
  induction bs generalizing t with
  | nil => simp [hear]
  | cons b bs ih =>
    have hd : l.drive (.tx b) = l := rfl
    simp only [List.map_cons, hear, hearEvent, h, hd, ih]
    cases l.dc <;> simp

/-- The lines after a frame, whole or broken off, do not depend on how much was sent. -/
theorem wireFrame_lines (c : Cfg) (call : Call) (sent : Nat) (l : Lines) :
    (wireFrame c call sent).foldl Lines.drive l = linesAfter c call l := by
  unfold wireFrame linesAfter
  cases c.transport with
  | i2c => rfl
  | spi =>
    simp only [spiFrame, List.foldl_append, drive_tx]
    rfl

/-- Everything a transaction answered `ok` does. -/
theorem transferOk_eq (c : Call) (s : State) :
    transferOk c s = { s with
      t := hear s.cfg.i2cAddr (wireFrame s.cfg c c.bytes.length) s.lines s.t,
      wire := s.wire ++ wireFrame s.cfg c c.bytes.length,
      lines := linesAfter s.cfg c s.lines,
      calls := s.calls ++ [{ call := c, ok := true }] } := by
  simp [transferOk, emit, logCall, wireFrame_lines]

/-- Everything a transaction answered `fail` does. -/
theorem transferFail_eq (c : Call) (sent received : Nat) (s : State) :
    transferFail c sent received s = { s with
      t := recvPart c received s.t,
      wire := s.wire ++ wireFrame s.cfg c sent,
      lines := linesAfter s.cfg c s.lines,
      calls := s.calls ++ [{ call := c, ok := false }] } := by
  simp [transferFail, emit, logCall, wireFrame_lines]

/-- The discipline of two runs of events. -/
theorem wireOk_append (addr : BitVec 7) (es fs : List WireEvent) (l : Lines) :
    wireOk addr l (es ++ fs) = (wireOk addr l es && wireOk addr (es.foldl Lines.drive l) fs) := by
  induction es generalizing l with
  | nil => simp [wireOk]
  | cons e es ih => simp [wireOk, ih, Bool.and_assoc]

/-- Bytes may go out while the target is selected. -/
theorem wireOk_tx (addr : BitVec 7) (bs : List Byte) {l : Lines} (h : l.cs = false) :
    wireOk addr l (bs.map WireEvent.tx) = true := by
  induction bs with
  | nil => rfl
  | cons b bs ih =>
    have hd : l.drive (.tx b) = l := rfl
    simp [wireOk, eventOk, h, hd, ih]

/-- A selected target takes every byte, with the level of `DC`. -/
theorem selectedBytes_tx (bs : List Byte) (es : List WireEvent) {l : Lines} (h : l.cs = false) :
    selectedBytes l (bs.map WireEvent.tx ++ es) = bs.map (fun b => (l.dc, b)) ++ selectedBytes l es := by
  induction bs with
  | nil => rfl
  | cons b bs ih => simp [selectedBytes, h, ih]

end Sys2Proof.Machine
end

