-- ==== Sys2Proof/Laws/PerInstr.lean ====
section
/-! SUPPORT. One statement for every instruction: its encoding selects its own row of the opcode table. -/

namespace Sys2Proof.Laws.RowMatch

/-- The match and the mask of each instruction's row of spec/opcode_table.json. -/
def row : Instr → Nat × Nat
  | .hInit _ => (0x000, 0x700)
  | .hShow _ => (0x100, 0x700)
  | .hPowerOff _ => (0x200, 0x700)
  | .hPowerOn _ => (0x300, 0x700)
  | .hSetContrast _ => (0x400, 0x700)
  | .hSetInvert _ => (0x500, 0x700)
  | .hReserved _ _ => (0x600, 0x600)
  | .cColLow _ => (0x00, 0xF0)
  | .cColHigh _ => (0x10, 0xF0)
  | .cAddrMode _ => (0x20, 0xFF)
  | .cStartLine _ => (0x40, 0xC0)
  | .cContrast _ => (0x81, 0xFF)
  | .cChargePump _ => (0x8D, 0xFF)
  | .cSegRemap _ => (0xA0, 0xFE)
  | .cEntireOn => (0xA4, 0xFF)
  | .cNormInv _ => (0xA6, 0xFE)
  | .cMuxRatio _ => (0xA8, 0xFF)
  | .cDisp _ => (0xAE, 0xFE)
  | .cPage _ => (0xB0, 0xF8)
  | .cComScan _ => (0xC0, 0xF7)
  | .cDispOffset _ => (0xD3, 0xFF)
  | .cClkDiv _ => (0xD5, 0xFF)
  | .cPrecharge _ => (0xD9, 0xFF)
  | .cComPins _ => (0xDA, 0xFF)
  | .cVcomDesel _ => (0xDB, 0xFF)
  | .i2cCtrlCmd _ => (0x00, 0xFF)
  | .i2cCtrlData _ => (0x40, 0xFF)

/-- The word of an image that the opcode table gives a row: the host word, or the first byte. -/
def tableWord : Image → Option Nat
  | .host w => some w.toNat
  | .command (b :: _) | .frame (b :: _) => some b.toNat
  | .command [] | .frame [] => none

/-- Whether an instruction's encoding selects its row. -/
def selectsRow (i : Instr) : Bool :=
  match tableWord (encode i) with
  | some w => w &&& (row i).2 == (row i).1
  | none => false

/-- An instruction's encoding selects its own row of the opcode table, whatever its operands. -/
def Statement (i : Instr) : Prop := selectsRow i = true

theorem hInit (arg : Byte) : Statement (.hInit arg) := by unfold Statement; revert arg; decide
theorem hShow (arg : Byte) : Statement (.hShow arg) := by unfold Statement; revert arg; decide
theorem hPowerOff (arg : Byte) : Statement (.hPowerOff arg) := by unfold Statement; revert arg; decide
theorem hPowerOn (arg : Byte) : Statement (.hPowerOn arg) := by unfold Statement; revert arg; decide
theorem hSetContrast (value : Byte) : Statement (.hSetContrast value) := by unfold Statement; revert value; decide
theorem hSetInvert (arg : Byte) : Statement (.hSetInvert arg) := by unfold Statement; revert arg; decide
theorem hReserved (code : BitVec 1) (arg : Byte) : Statement (.hReserved code arg) := by
  unfold Statement; revert code arg; decide
theorem cColLow (n : BitVec 4) : Statement (.cColLow n) := by unfold Statement; revert n; decide
theorem cColHigh (n : BitVec 4) : Statement (.cColHigh n) := by unfold Statement; revert n; decide
theorem cAddrMode (param : Byte) : Statement (.cAddrMode param) := by simp [Statement, selectsRow, encode, tableWord, row]
theorem cStartLine (line : BitVec 6) : Statement (.cStartLine line) := by unfold Statement; revert line; decide
theorem cContrast (param : Byte) : Statement (.cContrast param) := by simp [Statement, selectsRow, encode, tableWord, row]
theorem cChargePump (param : Byte) : Statement (.cChargePump param) := by simp [Statement, selectsRow, encode, tableWord, row]
theorem cSegRemap (r : BitVec 1) : Statement (.cSegRemap r) := by unfold Statement; revert r; decide
theorem cEntireOn : Statement .cEntireOn := rfl
theorem cNormInv (v : BitVec 1) : Statement (.cNormInv v) := by unfold Statement; revert v; decide
theorem cMuxRatio (param : Byte) : Statement (.cMuxRatio param) := by simp [Statement, selectsRow, encode, tableWord, row]
theorem cDisp (on : BitVec 1) : Statement (.cDisp on) := by unfold Statement; revert on; decide
theorem cPage (page : BitVec 3) : Statement (.cPage page) := by unfold Statement; revert page; decide
theorem cComScan (d : BitVec 1) : Statement (.cComScan d) := by unfold Statement; revert d; decide
theorem cDispOffset (param : Byte) : Statement (.cDispOffset param) := by simp [Statement, selectsRow, encode, tableWord, row]
theorem cClkDiv (param : Byte) : Statement (.cClkDiv param) := by simp [Statement, selectsRow, encode, tableWord, row]
theorem cPrecharge (param : Byte) : Statement (.cPrecharge param) := by simp [Statement, selectsRow, encode, tableWord, row]
theorem cComPins (param : Byte) : Statement (.cComPins param) := by simp [Statement, selectsRow, encode, tableWord, row]
theorem cVcomDesel (param : Byte) : Statement (.cVcomDesel param) := by simp [Statement, selectsRow, encode, tableWord, row]
theorem i2cCtrlCmd (b : Byte) : Statement (.i2cCtrlCmd b) := by simp [Statement, selectsRow, encode, tableWord, row]
theorem i2cCtrlData (bs : List Byte) : Statement (.i2cCtrlData bs) := by simp [Statement, selectsRow, encode, tableWord, row]

end Sys2Proof.Laws.RowMatch
end

