-- ==== Sys2Proof/Laws/Step.lean ====
section
/-! SUPPORT. What a step can do: inversion of the dispatch of a request, of an engine step and of the whole step,
and the lemmas that run one step. -/

namespace Sys2Proof.Machine

/-! ### Host operations -/

/-- A request that is dispatched now. -/
theorem offer_now {verdict : State → State} {s : State} (hl : s.cfg.legal = true) (hb : s.busy = false)
    (hr : s.tr = .ready) : offer verdict s = .next (verdict s) := by
  simp [offer, hl, hb, hr]

/-- A request that is held. -/
theorem offer_held {verdict : State → State} {s : State} (hl : s.cfg.legal = true)
    (h : s.busy = true ∨ s.tr ≠ .ready) : offer verdict s = .next s := by
  unfold offer
  rw [if_pos hl, if_neg]
  rcases h with h | h <;> simp [h]

/-- Everything a request can do: it is held, or the engine is at rest and ready and it is accepted or rejected. -/
theorem offer_cases {verdict : State → State} {s s' : State} (h : offer verdict s = .next s') :
    s.cfg.legal = true ∧ ((s' = s ∧ (s.busy = true ∨ s.tr ≠ .ready)) ∨
      (s.busy = false ∧ s.tr = .ready ∧ s' = verdict s)) := by
  unfold offer at h
  split at h
  · rename_i hl
    refine ⟨hl, ?_⟩
    split at h
    · rename_i hb
      exact .inr ⟨hb.1, hb.2, by cases h; rfl⟩
    · rename_i hb
      refine .inl ⟨by cases h; rfl, ?_⟩
      cases hbb : s.busy
      · exact .inr fun hr => hb ⟨hbb, hr⟩
      · exact .inl rfl
  · cases h

theorem offer_not_fault {verdict : State → State} {s : State} {f : Fault} : offer verdict s ≠ .fault f := by
  unfold offer; split
  · split <;> simp
  · simp

/-- What the dispatch of a host word can make of a state at rest (R121): `init` accepted; a show accepted in
`Active`; a toggle accepted in `Active`; or Rejected. -/
inductive Dispatched (s : State) : State → Prop
  | init (arg : Byte) : Dispatched s (initEntry (latch 0 arg s))
  | show' (arg : Byte) (h : s.lc = .active) : Dispatched s (showEntry (latch 1 arg s))
  | toggle (op : BitVec 3) (arg : Byte) (h : s.lc = .active) (ho : op = 2 ∨ op = 3 ∨ op = 4 ∨ op = 5) :
      Dispatched s (togEntry (latch op arg s))
  | rejected : Dispatched s (raiseRejected s)

theorem dispatched_whenActive {s : State} {entry : State → State} (h : s.lc = .active → Dispatched s (entry s)) :
    Dispatched s (whenActive entry s) := by
  unfold whenActive; split
  · exact h ‹_›
  · exact .rejected

/-- What a host operation makes of a state at rest. -/
def hostVerdict : Instr → State → State
  | .hInit arg => fun s => initEntry (latch 0 arg s)
  | .hShow arg => whenActive fun s => showEntry (latch 1 arg s)
  | .hPowerOff arg => whenActive fun s => togEntry (latch 2 arg s)
  | .hPowerOn arg => whenActive fun s => togEntry (latch 3 arg s)
  | .hSetContrast value => whenActive fun s => togEntry (latch 4 value s)
  | .hSetInvert arg => whenActive fun s => togEntry (latch 5 arg s)
  | _ => raiseRejected

theorem exec_decodeHost (w : HostWord) (s : State) :
    exec (decodeHost w) s = offer (hostVerdict (decodeHost w)) s := by
  unfold decodeHost
  dsimp only
  split <;> rfl

theorem hostVerdict_dispatched (i : Instr) (s : State) : Dispatched s (hostVerdict i s) := by
  unfold hostVerdict
  split
  · exact .init _
  · exact dispatched_whenActive (.show' _)
  · exact dispatched_whenActive fun hl => .toggle 2 _ hl (by decide)
  · exact dispatched_whenActive fun hl => .toggle 3 _ hl (by decide)
  · exact dispatched_whenActive fun hl => .toggle 4 _ hl (by decide)
  · exact dispatched_whenActive fun hl => .toggle 5 _ hl (by decide)
  · exact .rejected

/-- Everything a host word can do. -/
theorem exec_decodeHost_cases {w : HostWord} {s s' : State} (h : exec (decodeHost w) s = .next s') :
    s.cfg.legal = true ∧ ((s' = s ∧ (s.busy = true ∨ s.tr ≠ .ready)) ∨
      (s.busy = false ∧ s.tr = .ready ∧ Dispatched s s')) := by
  rw [exec_decodeHost] at h
  obtain ⟨hl, h | ⟨hb, hr, rfl⟩⟩ := offer_cases h
  · exact ⟨hl, .inl h⟩
  · exact ⟨hl, .inr ⟨hb, hr, hostVerdict_dispatched _ s⟩⟩

/-- A host word never faults, and is refused only with an illegal configuration. -/
theorem exec_decodeHost_stops (w : HostWord) (s : State) :
    (∀ f, exec (decodeHost w) s ≠ .fault f) ∧
    (∀ r, exec (decodeHost w) s = .refused r → s.cfg.legal = false ∧ r = .illegalConfig) := by
  rw [exec_decodeHost]
  refine ⟨fun f => offer_not_fault, fun r h => ?_⟩
  unfold offer at h
  split at h
  · split at h <;> cases h
  · rename_i hl
    cases h
    exact ⟨Bool.eq_false_iff.mpr hl, rfl⟩

/-! ### Commands -/

/-- A command is the shadow's own effect, and nothing else (R130). -/
theorem exec_command (i : Instr) (h : isOneByte i = true) (s : State) :
    exec i s = .next { s with t := shadowExec i s.t } := by
  cases i <;> first | rfl | simp [isOneByte] at h

theorem exec_withParam (m : TwoByte) (b : Byte) (s : State) :
    exec (withParam m b) s = .next { s with t := unlessFault (takeParam m b) s.t } := by
  cases m <;> rfl

/-- A byte of the command stream that arrives is taken in by the shadow, and nothing else happens. -/
theorem arrive_cmd (b : Byte) (s : State) : arrive (.cmd b) s = .next { s with t := recvCmd b s.t } := by
  unfold arrive recvCmd
  dsimp only
  cases hf : fetch s.t b with
  | skip => rfl
  | run i =>
    dsimp only
    unfold fetch at hf
    split at hf
    · cases hf
    · split at hf
      · cases hf
        rw [exec_withParam]; rename_i m _; cases m <;> rfl
      · split at hf <;> cases hf
        exact exec_command _ (classify_one ‹_›) s
  | await m => rfl
  | unmapped => rfl

/-- What an I2C payload can decode to. -/
theorem decodeFrame_cases {bs : List Byte} {i : Instr} (h : decodeFrame bs = .ok i) :
    (∃ b, bs = [0x00, b] ∧ i = .i2cCtrlCmd b) ∨ (∃ v vs, bs = 0x40 :: v :: vs ∧ i = .i2cCtrlData (v :: vs)) := by
  unfold decodeFrame at h
  split at h
  · cases h
  · rename_i c rest
    split at h
    · rename_i hc; subst hc
      split at h
      · cases h; exact .inl ⟨_, rfl, rfl⟩
      · cases h
    · split at h
      · rename_i hc; subst hc
        split at h
        · cases h
        · rename_i hne; cases h
          cases rest with
          | nil => exact absurd rfl (hne)
          | cons v vs => exact .inr ⟨v, vs, rfl, rfl⟩
      · cases h

/-- Everything an arrival at the target can do: the shadow takes something in, or an unknown payload is refused. -/
theorem arrive_cases (x : Arrival) (s : State) :
    (∃ t, arrive x s = .next { s with t := t } ∧ (s.t.fault = true → t = s.t) ∧
      (s.t.gram.wf ∧ (∀ x ∈ s.t.gram, x.1 < 8 * gramW) → t.gram.wf ∧ ∀ x ∈ t.gram, x.1 < 8 * gramW)) ∨
    (∃ bs, x = .payload bs ∧ arrive x s = .refused (.unknownFrame bs)) := by
  cases x with
  | payload bs =>
    unfold arrive
    dsimp only
    cases hd : decodeFrame bs with
    | error e => exact .inr ⟨bs, rfl, rfl⟩
    | ok i =>
      refine .inl ?_
      rcases decodeFrame_cases hd with ⟨b, _, rfl⟩ | ⟨v, vs, _, rfl⟩
      · exact ⟨_, rfl, fun h => recvCmd_of_fault b h, fun h => by simpa using h⟩
      · exact ⟨_, rfl, fun h => recvDatas_of_fault _ h, fun h => recvDatas_gram_ok _ h⟩
  | cmd b => exact .inl ⟨_, arrive_cmd b s, fun h => recvCmd_of_fault b h, fun h => by simpa using h⟩
  | data v =>
    exact .inl ⟨_, rfl, fun h => recvData_of_fault v h,
      fun h => ⟨recvData_gram_wf v h.1, recvData_gram_inside v h.2⟩⟩

/-! ### The engine -/

/-- Everything an engine step can do. -/
theorem engineStep_cases {s s' : State} (h : engineStep s = .next s') :
    (s.seq = .clear ∧ s' = clearFb s) ∨
    (∃ c, callAt s = .ok c ∧ s' = answered c (nextAnswer s) (answerTaken s)) := by
  unfold engineStep at h
  split at h
  · cases h; exact .inl ⟨‹_›, rfl⟩
  · split at h
    · cases h
    · cases h; exact .inr ⟨_, ‹_›, rfl⟩

theorem engineStep_clear {s : State} (h : s.seq = .clear) : engineStep s = .next (clearFb s) := by
  simp [engineStep, h]

theorem engineStep_call {s : State} {c : Call} (h : callAt s = .ok c) :
    engineStep s = .next (answered c (nextAnswer s) (answerTaken s)) := by
  have hs : s.seq ≠ .clear := by intro hs; simp [callAt, hs] at h
  unfold engineStep
  split
  · exact absurd ‹_› hs
  · rw [h]

/-! ### The whole step -/

/-- What the host has left when it makes no move. -/
theorem host_of_waits {s : State} {held : List HostMove} (h : hostWaits s held) :
    s.host = held ∨ s.host = .pass :: held := by
  rcases h with h | ⟨h, _⟩
  · exact .inr h
  · exact .inl h

/-- Which agent a step moves, and what it does (log 6). -/
inductive Stepped (s : State) : State → Prop
  /-- The SPI adapter's reset pulse. -/
  | pulse (ht : s.cfg.transport = .spi) (hr : s.tr ≠ .ready) (held : List HostMove)
      (hh : (s.busy = true ∧ s.host = held) ∨ (s.busy = false ∧ hostWaits s held)) :
      Stepped s (pulse { s with host := held })
  /-- `Clear`. -/
  | clear (hb : s.busy = true) (hq : s.seq = .clear) : Stepped s (clearFb s)
  /-- A transport call. -/
  | call (hb : s.busy = true) (c : Call) (hc : callAt s = .ok c) :
      Stepped s (answered c (nextAnswer s) (answerTaken s))
  /-- An arrival at the target. -/
  | arrival (hb : s.busy = false) (x : Arrival) (rest : List Arrival) (hx : s.tin = x :: rest) (t : Target)
      (hf : s.t.fault = true → t = s.t)
      (hg : s.t.gram.wf ∧ (∀ x ∈ s.t.gram, x.1 < 8 * gramW) → t.gram.wf ∧ ∀ x ∈ t.gram, x.1 < 8 * gramW)
      (held : List HostMove) (hh : hostWaits s held) :
      Stepped s { s with host := held, tin := rest, t := t }
  /-- A request dispatched. -/
  | request (hb : s.busy = false) (w : HostWord) (rest : List HostMove)
      (hh : s.host = .req w :: rest) (hr : s.tr = .ready) (s' : State)
      (hd : Dispatched { s with host := rest } s') : Stepped s s'
  /-- A write by the host. -/
  | write (hb : s.busy = false) (a : Nat) (v : Byte) (rest : List HostMove)
      (hh : s.host = .fbWrite a v :: rest) (ha : a < fbSize s.cfg) :
      Stepped s { s with host := rest, fb := Memory.write s.fb a v }
  /-- Nothing to do. -/
  | idle (hb : s.busy = false) (hi : s.tin = []) (held : List HostMove) (hh : hostWaits s held) :
      Stepped s { s with host := held }

/-- Everything the others can do while the host makes no move. -/
theorem others_cases {s s' : State} {held : List HostMove} (hb : s.busy = false) (hh : hostWaits s held)
    (h : others { s with host := held } = .next s') : Stepped s s' := by
  unfold others at h
  split at h
  · rename_i hp; cases h; exact Stepped.pulse (s := s) hp.1 hp.2 held (.inr ⟨hb, hh⟩)
  · dsimp only at h
    split at h
    · rename_i x rest hx
      rcases arrive_cases x { s with host := held, tin := rest } with ⟨t, ha, hf, hg⟩ | ⟨bs, _, ha⟩
      · rw [ha] at h; cases h; exact Stepped.arrival (s := s) hb x rest hx t hf hg held hh
      · rw [ha] at h; cases h
    · rename_i hi; cases h; exact Stepped.idle (s := s) hb hi held hh

/-- Everything a step can do. -/
theorem step_cases {s s' : State} (h : step s = .next s') : s.cfg.legal = true ∧ Stepped s s' := by
  unfold step at h
  split at h
  swap
  · cases h
  rename_i hl
  refine ⟨hl, ?_⟩
  split at h
  · rename_i hb
    split at h
    · rename_i hp; cases h; exact .pulse hp.1 hp.2 s.host (.inl ⟨hb, rfl⟩)
    rcases engineStep_cases h with ⟨hq, rfl⟩ | ⟨c, hc, rfl⟩
    · exact .clear hb hq
    · exact .call hb c hc
  · rename_i hb
    replace hb : s.busy = false := by simpa using hb
    unfold hostStep at h
    split at h
    · rename_i hh; exact others_cases (held := s.host) hb (.inr ⟨rfl, .inl hh⟩) h
    · rename_i rest hh; exact others_cases hb (.inl hh) h
    · rename_i w rest hh
      split at h
      · rename_i hr
        obtain ⟨_, ⟨_, hn⟩ | ⟨_, _, hd⟩⟩ := exec_decodeHost_cases h
        · rcases hn with hn | hn
          · simp [hb] at hn
          · exact absurd hr hn
        · exact .request hb w rest hh hr s' hd
      · rename_i hr
        exact others_cases (held := s.host) hb (.inr ⟨rfl, .inr ⟨hr, w, rest, hh⟩⟩) h
    · rename_i a v rest hh
      unfold hostWrite at h
      split at h
      · cases h; exact .write hb a v rest hh ‹_›
      · cases h

/-- At rest, while the host makes no move, the others move. -/
theorem step_others {s : State} {held : List HostMove} (hl : s.cfg.legal = true) (hb : s.busy = false)
    (h : hostWaits s held) : step s = others { s with host := held } := by
  unfold step
  rw [if_pos hl, if_neg (by simp [hb])]
  unfold hostStep
  rcases h with h | ⟨rfl, h | ⟨hr, w, rest, h⟩⟩
  · rw [h]
  · rw [h]; exact congrArg others (by rw [← h])
  · rw [h]; dsimp only; rw [if_neg hr]; exact congrArg others (by rw [← h])

/-- A busy engine with a ready adapter takes an engine step. -/
theorem step_busy {s : State} (hl : s.cfg.legal = true) (hb : s.busy = true) (hr : s.tr = .ready) :
    step s = engineStep s := by
  simp [step, hl, hb, hr]

end Sys2Proof.Machine
end

