-- ==== Sys2Proof/Laws/Sequencer.lean ====
section
/-! SUPPORT. What the sequencer's operations do: the advance, the read of a page of the frame buffer, and the runs
of steps. -/

namespace Sys2Proof.Machine

/-- Everything an advance does (R122). -/
theorem advance_eq (s : State) :
    advance s = if succ s.cfg s.op s.seq = .idle then complete s else { s with seq := succ s.cfg s.op s.seq } := by
  unfold advance
  cases succ s.cfg s.op s.seq <;> simp

/-- A read of the frame buffer answers as many bytes as it was asked for. -/
theorem readFb_length {c : Cfg} {fb : Memory} {n a : Nat} {bs : List Byte} (h : readFb c fb a n = .ok bs) :
    bs.length = n := by
  induction n generalizing a bs with
  | zero => cases h; rfl
  | succ n ih =>
    simp only [readFb] at h
    split at h
    · split at h
      · cases h
      · split at h
        · cases h; simp [ih ‹_›]
        · cases h
    · cases h

/-- A data write carries `cfg.width` bytes (R98). -/
theorem callAt_wd {s : State} {bs : List Byte} (h : callAt s = .ok (.wd bs)) : bs.length = s.cfg.width := by
  unfold callAt at h
  split at h
  case h_5 =>
    split at h
    · cases h; exact readFb_length ‹_›
    · cases h
  case h_6 => split at h <;> cases h
  all_goals cases h

/-- A read inside a frame buffer whose bytes all have values (R201). -/
theorem readFb_full {c : Cfg} {fb : Memory} (hf : fbFull c fb) (n a : Nat) (h : a + n ≤ fbSize c) :
    readFb c fb a n = .ok ((List.range n).map fun x => (Memory.read fb (a + x)).getD 0) := by
  induction n generalizing a with
  | zero => rfl
  | succ n ih =>
    obtain ⟨v, hv⟩ := hf a (by omega)
    simp only [readFb, hv, show a < fbSize c by omega, if_true, ih (a + 1) (by omega)]
    simp only [List.range_succ_eq_map, List.map_cons, List.map_map, Nat.add_zero, hv, Option.getD_some]
    congr 2
    refine List.map_congr_left fun x _ => ?_
    simp only [Function.comp_apply, Nat.succ_eq_add_one, show a + 1 + x = a + (x + 1) by omega]

/-- The columns of a page lie inside the frame buffer (R60). -/
theorem fbIndex_lt {c : Cfg} {p x : Nat} (hp : p < pages c) (hx : x < c.width) : fbIndex c p x < fbSize c := by
  have h : (p + 1) * c.width ≤ pages c * c.width := Nat.mul_le_mul_right _ hp
  rw [Nat.add_mul] at h
  simp only [fbIndex, fbSize]
  omega

/-- The legal configurations, as arithmetic. -/
theorem legal_iff (c : Cfg) : c.legal = true ↔
    (1 ≤ c.width ∧ c.width ≤ 132) ∧ (1 ≤ c.height ∧ c.height ≤ 64) ∧
      (1 ≤ c.tRstA ∧ 10 ≤ c.tRstB ∧ 100 ≤ c.tRstC) := by
  simp [Cfg.legal, and_assoc]

/-! ### Runs of steps -/

@[simp] theorem run_zero (s : State) : run 0 s = .next s := rfl

theorem run_one {s s' : State} (h : step s = .next s') : run 1 s = .next s' := by
  simp [run, h]

theorem run_add {a : Nat} (b : Nat) {s s' : State} (h : run a s = .next s') : run (a + b) s = run b s' := by
  induction a generalizing s with
  | zero => cases h; simp
  | succ a ih =>
    rw [show a + 1 + b = (a + b) + 1 by omega]
    simp only [run] at h ⊢
    cases hs : step s <;> simp only [hs] at h ⊢
    · exact ih h
    · cases h
    · cases h

/-- One step, then the rest of a run. -/
theorem run_step {s s' : State} (h : step s = .next s') (n : Nat) : run (1 + n) s = run n s' :=
  run_add n (run_one h)

end Sys2Proof.Machine
end

