-- ==== Sys2Proof/Tests/Slice0.lean ====
section
/-! SUPPORT. Tests: the well-formedness smoke, decoding of words written out from the spec, small steps whose
expected results are the spec's vectors (95_test_vectors.md), and a witness for each statement's hypotheses. -/

namespace Sys2Proof.Tests

open Sys2Proof.Machine

/-- The next state of a result, where there is one. -/
def nextOf : Result → Option State
  | .next s => some s
  | .fault _ | .refused _ => none

/-- The fault of a result, where there is one. -/
def faultOf : Result → Option Fault
  | .fault f => some f
  | .next _ | .refused _ => none

/-- The refusal of a result, where there is one. -/
def refusalOf : Result → Option Refusal
  | .refused r => some r
  | .next _ | .fault _ => none

/-! ### Small configurations and states -/

/-- One column, one page: a frame buffer of one byte (V33). -/
def dot : Cfg := { Config.board with width := 1, height := 8 }

/-- The same on SPI. -/
def dotSpi : Cfg := { dot with transport := .spi }

/-- The largest geometry. -/
def full : Cfg := { Config.board with width := 132, height := 64 }

/-- Active and at rest, the one byte of the frame buffer 0x55, the shadow in step with its pointers set. -/
def active : State :=
  { State.resetOf dot with
    lc := .active, fb := [(0, 0x55)],
    t := { Target.reset with page := Reg.of 0, colHi := Reg.of 4, colLo := Reg.of 2, invert := Reg.of 0 } }

/-- `active`, with a request at the port and answers to come. -/
def asked (w : HostWord) (answers : List Answer) : State :=
  { active with host := [.req w], script := answers }

/-- A busy engine at a position of an operation, with answers to come. -/
def busyAt (c : Cfg) (op : BitVec 3) (arg : Byte) (q : Machine.Seq) (answers : List Answer) : State :=
  { State.resetOf c with
    tr := .ready, lc := if op = 0 then .initializing else .active, busy := true, op := op, arg := arg,
    coloff := colOffset c, seq := q, script := answers }

/-- A state whose shadow has the page and column pointers given. -/
def pointing (page : BitVec 3) (col : Byte) : State :=
  { State.reset with t := setCol col (setPage page Target.reset) }

/-! ### Well-formedness: an ill-formed term for each check, which the check refuses -/

theorem test_wf_refuses_empty_data : Instr.wf (.i2cCtrlData []) = false := by decide
theorem test_wf_accepts_data : Instr.wf (.i2cCtrlData [0x00]) = true := by decide
theorem test_legal_refuses_width : ({ full with width := 0 }).legal = false ∧
    ({ full with width := 133 }).legal = false := by decide
theorem test_legal_refuses_height : ({ full with height := 0 }).legal = false ∧
    ({ full with height := 65 }).legal = false := by decide
theorem test_legal_refuses_short_holds : ({ full with tRstA := 0 }).legal = false ∧
    ({ full with tRstB := 9 }).legal = false ∧ ({ full with tRstC := 99 }).legal = false := by decide
theorem test_legal_accepts_bounds : full.legal = true ∧
    ({ full with width := 1, height := 1 }).legal = true := by decide

/-! ### Decoding of words written out bit by bit (R90, R93, R101; V1, V3, V5, V40, V41) -/

theorem test_decode_hInit : decode (.host 0b000_10101011) = .ok (.hInit 0xAB) := by decide
theorem test_decode_hShow : decode (.host 0b001_00000000) = .ok (.hShow 0x00) := by decide
theorem test_decode_hPowerOff : decode (.host 0b010_00000000) = .ok (.hPowerOff 0x00) := by decide
theorem test_decode_hPowerOn : decode (.host 0b011_00000000) = .ok (.hPowerOn 0x00) := by decide
theorem test_decode_hSetContrast : decode (.host 0b100_01111111) = .ok (.hSetContrast 0x7F) := by decide
theorem test_decode_hSetInvert : decode (.host 0b101_00000001) = .ok (.hSetInvert 0x01) := by decide
theorem test_decode_hReserved : decode (.host 0b110_00000000) = .ok (.hReserved 0 0x00) ∧
    decode (.host 0b111_11111111) = .ok (.hReserved 1 0xFF) := by decide
theorem test_decode_cColLow : decode (.command [0b0000_1111]) = .ok (.cColLow 15) := by decide
theorem test_decode_cColHigh : decode (.command [0b0001_0100]) = .ok (.cColHigh 4) := by decide
theorem test_decode_cAddrMode : decode (.command [0b00100000, 0x00]) = .ok (.cAddrMode 0x00) := by decide
theorem test_decode_cStartLine : decode (.command [0b01_111111]) = .ok (.cStartLine 63) := by decide
theorem test_decode_cContrast : decode (.command [0b10000001, 0xAE]) = .ok (.cContrast 0xAE) := by decide
theorem test_decode_cChargePump : decode (.command [0b10001101, 0x14]) = .ok (.cChargePump 0x14) := by decide
theorem test_decode_cSegRemap : decode (.command [0b1010000_1]) = .ok (.cSegRemap 1) := by decide
theorem test_decode_cEntireOn : decode (.command [0b10100100]) = .ok .cEntireOn := by decide
theorem test_decode_cNormInv : decode (.command [0b1010011_1]) = .ok (.cNormInv 1) := by decide
theorem test_decode_cMuxRatio : decode (.command [0b10101000, 0x3F]) = .ok (.cMuxRatio 0x3F) := by decide
theorem test_decode_cDisp : decode (.command [0b1010111_0]) = .ok (.cDisp 0) := by decide
theorem test_decode_cPage : decode (.command [0b10110_101]) = .ok (.cPage 5) := by decide
theorem test_decode_cComScan : decode (.command [0b1100_1_000]) = .ok (.cComScan 1) ∧
    decode (.command [0b1100_0_000]) = .ok (.cComScan 0) := by decide
theorem test_decode_cDispOffset : decode (.command [0b11010011, 0x00]) = .ok (.cDispOffset 0x00) := by decide
theorem test_decode_cClkDiv : decode (.command [0b11010101, 0x80]) = .ok (.cClkDiv 0x80) := by decide
theorem test_decode_cPrecharge : decode (.command [0b11011001, 0xF1]) = .ok (.cPrecharge 0xF1) := by decide
theorem test_decode_cComPins : decode (.command [0b11011010, 0x12]) = .ok (.cComPins 0x12) := by decide
theorem test_decode_cVcomDesel : decode (.command [0b11011011, 0x30]) = .ok (.cVcomDesel 0x30) := by decide
theorem test_decode_i2cCtrlCmd : decode (.frame [0b00000000, 0xAE]) = .ok (.i2cCtrlCmd 0xAE) := by decide
theorem test_decode_i2cCtrlData :
    decode (.frame [0b01000000, 0x01, 0x02]) = .ok (.i2cCtrlData [0x01, 0x02]) := by decide

/-- V1, R99: bytes outside the map are refused by name. -/
theorem test_decode_refuses_unmapped : ∀ b ∈ [(0x21 : Byte), 0x3F, 0x80, 0xA5, 0xB8, 0xC1, 0xC9, 0xD4, 0xE3, 0xFF],
    decode (.command [b]) = .error (.unmappedCommand b) := by decide

/-- R217: payloads of no known form are refused by name. -/
theorem test_decode_refuses_frames : decode (.frame [0x80, 0xAE]) = .error (.badControlByte 0x80) ∧
    decode (.frame [0x00]) = .error .badCommandFrame ∧ decode (.frame [0x00, 0x01, 0x02]) = .error .badCommandFrame ∧
    decode (.frame [0x40]) = .error .emptyDataFrame := by decide

/-- A two-byte command cut short, and a byte too many (R95). -/
theorem test_decode_refuses_lengths : decode (.command [0x81]) = .error (.missingParameter .contrast) ∧
    decode (.command [0xA4, 0xA4]) = .error .trailingBytes ∧ decode (.command []) = .error .noBytes := by decide

/-- The command byte map covers 122 values (V2). -/
theorem test_map_covers_122 : ((List.range 256).filter fun n => classify (BitVec.ofNat 8 n) ≠ .unmapped).length = 122 := by
  decide +kernel

/-- A table word placed at the fetch is what the next step runs. -/
theorem test_fetch_host_word : (nextOf (step (State.reset.withFetchWord 16 0x0AB))).map (fun s => (s.lc, s.arg)) =
    some (.initializing, 0xAB) := by decide
theorem test_fetch_command_byte : (nextOf (step (State.reset.withFetchWord 8 0xB5))).map (fun s => s.t.page) =
    some (Reg.of 5) := by decide
theorem test_fetch_two_byte_command :
    (nextOf (step (State.reset.withFetchWord 8 0x81))).map (fun s => (s.t.contrast, s.t.pending)) =
    some (Reg.of 0x00, none) := by decide
theorem test_fetch_reserved_word : (nextOf (step (State.reset.withFetchWord 16 0x7AB))).map (fun s => s.status) =
    some .rejected := by decide

/-! ### Host operations (V5, V12, V50, V51, R177) -/

theorem test_hInit_from_reset : (nextOf (exec (.hInit 0) State.reset)).map
    (fun s => (s.lc, s.busy, s.seq, s.cfgWarn)) = some (.initializing, true, .rom 0, false) := by decide
theorem test_hInit_warns : (nextOf (exec (.hInit 0) (State.resetOf { Config.board with height := 20 }))).map
    (fun s => s.cfgWarn) = some true := by decide
theorem test_hShow_from_reset : (nextOf (exec (.hShow 0) State.reset)).map
    (fun s => (s.status, s.busy, s.lc, s.calls)) = some (.rejected, false, .uninitialized, []) := by decide
theorem test_hShow_active : (nextOf (exec (.hShow 0) { State.reset with lc := .active })).map
    (fun s => (s.coloff, s.seq, s.status)) = some (2, .pageSel 0, .ok) := by decide
theorem test_hPowerOff_from_reset : (nextOf (exec (.hPowerOff 0) State.reset)).map (fun s => s.status) =
    some .rejected := by decide
theorem test_hPowerOff_sends_ae : (callAt (busyAt Config.board 2 0 (.tog 0) [])).toOption = some (.wc 0xAE) := by decide
theorem test_hPowerOn_active : (nextOf (exec (.hPowerOn 7) active)).map (fun s => (s.op, s.seq)) =
    some (3, .tog 0) := by decide
theorem test_hPowerOn_sends_af : (callAt (busyAt Config.board 3 0 (.tog 0) [])).toOption = some (.wc 0xAF) := by decide
theorem test_hSetContrast_sends_81_first :
    (callAt (busyAt Config.board 4 0x7F (.tog 0) [])).toOption = some (.wc 0x81) := by decide
theorem test_hSetContrast_sends_the_value :
    (callAt (busyAt Config.board 4 0xAE (.tog 1) [])).toOption = some (.wc 0xAE) := by decide
theorem test_hSetInvert_even : (callAt (busyAt Config.board 5 0x02 (.tog 0) [])).toOption = some (.wc 0xA6) := by decide
theorem test_hSetInvert_odd : (callAt (busyAt Config.board 5 0xFF (.tog 0) [])).toOption = some (.wc 0xA7) := by decide
theorem test_hReserved_active : (nextOf (exec (.hReserved 0 0) active)).map (fun s => (s.status, s.lc, s.busy)) =
    some (.rejected, .active, false) := by decide
/-- R257, R124: a request that is rejected overwrites the `ERR_SEQ` of an earlier abort, with a free value. -/
theorem test_rejected_overwrites_errSeq :
    (nextOf (exec (.hReserved 0 0) { active with status := .busError, errSeq := .tog 1 })).map
      (fun s => (s.errSeq, s.ended)) = some (Config.freeErrSeq 0, 1) := rfl
theorem test_hReserved_while_busy : nextOf (exec (.hReserved 1 0xFF) { active with busy := true }) =
    some { active with busy := true } := by decide

/-! ### Commands (V1, V3, V4, and the examples of 41_command_set.md) -/

theorem test_cColLow : (nextOf (exec (.cColLow 2) (pointing 0 0x83))).map (fun s => colValue s.t) =
    some (some 0x82) := by decide
theorem test_cColLow_no_value : (nextOf (exec (.cColLow 2) State.reset)).map (fun s => colValue s.t) = some none := by
  decide
theorem test_cColHigh : (nextOf (exec (.cColHigh 1) (pointing 0 0x82))).map (fun s => colValue s.t) =
    some (some 0x12) := by decide
theorem test_cAddrMode : (nextOf (exec (.cAddrMode 0x00) (pointing 1 0x05))).map
    (fun s => (s.t.addrMode, colValue s.t)) = some (Reg.of 0x00, some 0x05) := by decide
theorem test_cStartLine : (nextOf (exec (.cStartLine 63) State.reset)).map (fun s => s.t.startLine) =
    some (Reg.of 63) := by decide
theorem test_cContrast_by_position : (recvCmd 0xAE (recvCmd 0x81 Target.reset)).contrast = Reg.of 0xAE ∧
    (recvCmd 0xAE (recvCmd 0x81 Target.reset)).dispOn.has = false := by decide
theorem test_cChargePump : (nextOf (exec (.cChargePump 0x14) (pointing 0 0x02))).map
    (fun s => (s.t.chargePump, colValue s.t)) = some (Reg.of 0x14, some 0x02) := by decide
theorem test_cSegRemap : (nextOf (exec (.cSegRemap 1) State.reset)).map (fun s => s.t.segRemap) =
    some (Reg.of 1) := by decide
theorem test_cEntireOn : (nextOf (exec .cEntireOn State.reset)).map (fun s => s.t.entireOn) =
    some (Reg.of 0) := by decide
theorem test_cNormInv : (nextOf (exec (.cNormInv 1) State.reset)).map (fun s => s.t.invert) =
    some (Reg.of 1) := by decide
theorem test_cMuxRatio : (nextOf (exec (.cMuxRatio 0x3F) State.reset)).map (fun s => s.t.muxRatio) =
    some (Reg.of 0x3F) := by decide
theorem test_cDisp : (nextOf (exec (.cDisp 1) State.reset)).map (fun s => s.t.dispOn) = some (Reg.of 1) := by decide
theorem test_cPage : (nextOf (exec (.cPage 5) (pointing 3 77))).map (fun s => (s.t.page, colValue s.t)) =
    some (Reg.of 5, some 77) := by decide
theorem test_cComScan : (nextOf (exec (.cComScan 1) State.reset)).map (fun s => s.t.comScan) =
    some (Reg.of 1) := by decide
theorem test_cDispOffset : (nextOf (exec (.cDispOffset 0x00) State.reset)).map (fun s => s.t.dispOffset) =
    some (Reg.of 0x00) := by decide
theorem test_cClkDiv : (nextOf (exec (.cClkDiv 0x80) State.reset)).map (fun s => s.t.clkDiv) =
    some (Reg.of 0x80) := by decide
theorem test_cPrecharge : (nextOf (exec (.cPrecharge 0xF1) State.reset)).map (fun s => s.t.precharge) =
    some (Reg.of 0xF1) := by decide
theorem test_cComPins : (nextOf (exec (.cComPins 0x12) State.reset)).map (fun s => s.t.comPins) =
    some (Reg.of 0x12) := by decide
theorem test_cVcomDesel : (nextOf (exec (.cVcomDesel 0x30) State.reset)).map (fun s => s.t.vcomDesel) =
    some (Reg.of 0x30) := by decide

/-- V1: a byte outside the map sets `T.fault`; a two-byte command is awaited. -/
theorem test_recvCmd_unmapped : (recvCmd 0x21 Target.reset).fault = true ∧
    (recvCmd 0xD9 Target.reset).pending = some .precharge := by decide

/-! ### I2C control bytes and data (V40, R160) -/

theorem test_i2cCtrlCmd_start_line : (nextOf (exec (.i2cCtrlCmd 0x40) State.reset)).map (fun s => s.t.startLine) =
    some (Reg.of 0) := by decide
theorem test_i2cCtrlCmd_awaits : (nextOf (exec (.i2cCtrlCmd 0xA8) State.reset)).map (fun s => s.t.pending) =
    some (some .muxRatio) := by decide
theorem test_i2cCtrlData_stores : (nextOf (exec (.i2cCtrlData [0xFF]) (pointing 0 2))).map
    (fun s => (s.t.gram, colValue s.t)) = some ([(2, 0xFF)], some 3) := by decide
theorem test_i2cCtrlData_end_of_row : (nextOf (exec (.i2cCtrlData [0x11, 0x22]) (pointing 7 131))).map
    (fun s => (s.t.gram, colValue s.t, s.t.fault)) = some ([(7 * 132 + 131, 0x11)], some 132, true) := by decide
theorem test_recvData_needs_pointers : (recvData 0x00 Target.reset).fault = true := by decide

/-! ### The mapper (R202, V14, V30) -/

/-- Width, offset, column-low byte, column-high byte. -/
theorem test_mapper_table : ∀ r ∈ [((132, 0, 0x00, 0x10) : Nat × BitVec 7 × Byte × Byte), (131, 0, 0x00, 0x10),
      (130, 1, 0x01, 0x10), (128, 2, 0x02, 0x10), (127, 2, 0x02, 0x10), (102, 15, 0x0F, 0x10),
      (100, 16, 0x00, 0x11), (96, 18, 0x02, 0x11), (72, 30, 0x0E, 0x11), (64, 34, 0x02, 0x12),
      (36, 48, 0x00, 0x13), (4, 64, 0x00, 0x14), (2, 65, 0x01, 0x14), (1, 65, 0x01, 0x14)],
    colOffset { full with width := r.1 } = r.2.1 ∧ colLowByte r.2.1 = r.2.2.1 ∧ colHighByte r.2.1 = r.2.2.2 := by
  decide
theorem test_rom_internal : romByte Config.board 6 = 0x3F ∧ romByte Config.board 15 = 0xF1 ∧
    romByte Config.board 23 = 0x14 := by decide
theorem test_rom_external : romByte { Config.board with height := 16, externalVcc := true } 6 = 0x0F ∧
    romByte { Config.board with externalVcc := true } 15 = 0x22 ∧
    romByte { Config.board with externalVcc := true } 23 = 0x10 := by decide

/-! ### Transactions and exceptions (V41 to V44, V46, V52, V54, V57) -/

theorem test_i2c_data_frame : wireFrame Config.board (.wd [0x01, 0x02, 0x03, 0x04]) 4 =
    [.i2cWr 0x3C [0x40, 0x01, 0x02, 0x03, 0x04]] := by decide
theorem test_spi_command_frame : wireFrame dotSpi (.wc 0xAE) 1 =
    [.spiCfg 10000000 0, .cs true, .dc false, .cs false, .tx 0xAE, .cs true] := by decide
theorem test_spi_broken_frame : wireFrame dotSpi (.wd [0x11, 0x22, 0x33]) 1 =
    [.spiCfg 10000000 0, .cs true, .dc true, .cs false, .tx 0x11, .cs true] := by decide
theorem test_pulse_first : (nextOf (step { State.resetOf dotSpi with host := [.req 0x000] })).map
    (fun s => (s.tr, s.wire, s.host)) = some (.pulseA, [.rst true], [.req 0x000]) := by decide
theorem test_pulse_last : (nextOf (step { State.resetOf dotSpi with tr := .pulseC })).map
    (fun s => (s.tr, s.wire)) = some (.ready, [.delay 100]) := by decide

/-- V52: `Rom(6)` fails, the byte not received. -/
theorem test_rom6_fails : (nextOf (step (busyAt Config.board 0 0 (.rom 6) [.fail 0 0]))).map
    (fun s => (s.status, s.errSeq, s.lc, s.busy, s.seq)) = some (.busError, .rom 6, .uninitialized, false, .idle) := by
  decide
/-- V57: `Tog(0)` of `set_contrast` fails, the byte received. -/
theorem test_tog0_fails_received : (nextOf (step (busyAt Config.board 4 0x40 (.tog 0) [.fail 1 1]))).map
    (fun s => (s.status, s.errSeq, s.lc, s.t.pending)) = some (.busError, .tog 0, .active, some .contrast) := by decide
/-- R252: of a failed data write the target has stored a prefix, and its column stands after it. -/
theorem test_data_fails_prefix : recvPart (.wd [0x11, 0x22, 0x33]) 2 (pointing 0 10).t =
    recvData 0x22 (recvData 0x11 (pointing 0 10).t) := by decide
/-- R32: a `Data(p)` step on a byte that has no value faults; so does a host write outside FB. -/
theorem test_data_without_value : faultOf (step (busyAt dot 1 0 (.data 0) [.ok])) = some (.fbNoValue 0) := by decide
theorem test_write_outside_fb : faultOf (step { active with host := [.fbWrite 1 0xFF] }) = some (.fbOutOfRange 1) := by
  decide
/-- R20: an illegal configuration has no step. -/
theorem test_illegal_cfg : refusalOf (step (State.resetOf { dot with width := 133 })) = some .illegalConfig := by decide
/-- The last `Data` step of `init` completes it (R175). -/
theorem test_init_completes :
    (nextOf (step { busyAt dot 0 0 (.data 0) [.ok] with fb := [(0, 0x00)], t := active.t })).map
      (fun s => (s.lc, s.status, s.busy, s.calls)) = some (.active, .ok, false, [okCall (.wd [0x00])]) := by decide
/-- `Clear` with no page completes at once (V13). -/
theorem test_clear_without_pages : (nextOf (step (busyAt { dot with height := 7 } 0 0 .clear []))).map
    (fun s => (s.lc, s.seq, s.fb)) = some (.active, .idle, []) := by decide
/-- An unanswered call leaves the engine where it is (U13). -/
theorem test_unanswered : (nextOf (step (busyAt dot 0 0 (.rom 3) [.wait]))).map (fun s => (s.seq, s.busy, s.calls)) =
    some (.rom 3, true, []) := by decide

/-! ### Witnesses: states and operands that meet the hypotheses of the statements -/

theorem full_active : fbFull dot [(0, 0x55)] := by
  intro a ha
  have h : a = 0 := by simpa [fbSize, pages, dot, Config.board] using ha
  exact ⟨0x55, by rw [h]; rfl⟩

theorem inv_active : Inv active := by
  constructor <;> try decide
  intro _; exact full_active

theorem targetInv_active : TargetInv active :=
  ⟨inv_active, fun _ => trivial, by decide⟩

/-- The engine about to select page 0 in a show. -/
def showing (answers : List Answer) : State := { active with
  busy := true, op := 1, coloff := colOffset dot, seq := .pageSel 0, script := answers }

theorem inv_showing : Inv (showing [.ok]) := by
  constructor <;> try decide
  intro _; exact full_active

theorem targetInv_showing : TargetInv (showing [.ok]) :=
  ⟨inv_showing, fun _ h => absurd rfl h, fun _ _ _ => by decide⟩

/-- The engine about to send the one byte of page 0, to a shadow with its pointers there. -/
def sending : State := { showing [.ok] with seq := .data 0, t := { active.t with colLo := Reg.of 1 } }

theorem targetInv_sending : TargetInv sending := by
  refine ⟨?_, fun _ => ⟨rfl, rfl, rfl, rfl⟩, fun _ _ _ => by decide⟩
  constructor <;> try decide
  intro _; exact full_active

/-- The engine about to send the second byte of a `set_contrast`, to a shadow that has swallowed the first. -/
def swallowed : State := { active with
  busy := true, op := 4, arg := 0x90, seq := .tog 1, script := [.ok] }

theorem targetInv_swallowed : TargetInv swallowed := by
  refine ⟨?_, fun _ => trivial, fun _ _ _ => by decide⟩
  constructor <;> try decide
  intro _; exact full_active

theorem witness_StepRunsTheRequestedOperation : mayDispatch (asked 0x100 []) ∧
    (asked 0x100 []).host = [.req 0x100] ∧ decode (.host 0x100) = .ok (.hShow 0x00) := by decide
theorem witness_StepRunsTheArrivedInstruction_host : hostWaits active [] ∧
    hostWaits { active with host := [.pass, .req 0x100] } [.req 0x100] :=
  ⟨.inr ⟨rfl, .inl rfl⟩, .inl rfl⟩
theorem witness_StepRunsTheArrivedInstruction_payload :
    mayArrive { active with tin := [.payload [0x40, 0xFF]] } ∧
    decode (.frame [0x40, 0xFF]) = .ok (.i2cCtrlData [0xFF]) := by decide
theorem witness_StepRunsTheArrivedInstruction_command : mayArrive { active with tin := [.cmd 0xAF] } ∧
    active.t.fault = false ∧ active.t.pending = none ∧ decode (.command [0xAF]) = .ok (.cDisp 1) := by decide
theorem witness_StepRunsTheArrivedInstruction_parameter :
    mayArrive { active with tin := [.cmd 0xAF], t := { active.t with pending := some .contrast } } ∧
    active.t.fault = false ∧ decode (.command [commandByte .contrast, 0xAF]) = .ok (.cContrast 0xAF) := by decide
theorem witness_CommandByteMapIsExact : outsideMap 0x21 = true ∧ outsideMap 0xFF = true ∧ outsideMap 0x20 = false ∧
    outsideMap 0xDB = false ∧ outsideMap 0x00 = false := by decide
theorem witness_DecodeOfEncode : Instr.wf (.i2cCtrlData [0xFF]) = true ∧ Instr.wf (.cPage 7) = true := by decide
theorem witness_EncodeOfDecode : decode (.host 0x7FF) = .ok (.hReserved 1 0xFF) ∧
    decode (.command [0xDB, 0xFF]) = .ok (.cVcomDesel 0xFF) ∧
    decode (.frame [0x40, 0x40]) = .ok (.i2cCtrlData [0x40]) := by decide
theorem witness_ResetLeavesTheTable : dot.transport = .i2c ∧ dotSpi.transport = .spi := by decide
theorem witness_ResetMeetsTheInvariants : dot.legal = true ∧ full.legal = true := by decide
theorem witness_InitIsAccepted : mayDispatch active ∧ mayDispatch State.reset := by decide
theorem witness_ShowIsAccepted : mayDispatch active ∧ active.lc = .active ∧ 8 ≤ active.cfg.height ∧
    mayDispatch { active with cfg := { dot with height := 7 } } ∧ ({ dot with height := 7 }).height < 8 := by decide
theorem witness_TogglesAreAccepted : mayDispatch active ∧ active.lc = .active := by decide
theorem witness_RequestsAreRejected : mayDispatch State.reset ∧ State.reset.lc ≠ .active ∧
    Instr.hSetInvert 0x01 ∈
      [Instr.hShow 0x01, .hPowerOff 0x01, .hPowerOn 0x01, .hSetContrast 0x01, .hSetInvert 0x01] := by decide
theorem witness_RequestsAreHeld_busy : active.cfg.legal = true ∧
    (nextOf (step { showing [.ok] with host := [.req 0x000] })).map (fun s => s.host) = some [.req 0x000] := by decide
theorem witness_RequestsAreHeld_pulse : (State.resetOf dotSpi).cfg.legal = true ∧
    (State.resetOf dotSpi).tr ≠ .ready ∧
    (nextOf (step { State.resetOf dotSpi with host := [.req 0x000] })).map (fun s => s.host) = some [.req 0x000] := by
  decide
theorem witness_HostOperationFrame : (nextOf (exec (.hInit 0xFF) active)).isSome = true ∧
    (nextOf (exec (.hReserved 1 0xFF) active)).isSome = true := by decide
theorem witness_ConfigurationIsAParameter : (nextOf (step active)).isSome = true ∧
    ¬ (1 ≤ ({ dot with width := 133 }).width ∧ ({ dot with width := 133 }).width ≤ 132) := by decide
theorem witness_HostWritesOneByte : active.cfg.legal = true ∧ active.busy = false ∧
    0 < active.cfg.height / 8 * active.cfg.width ∧ active.cfg.height / 8 * active.cfg.width ≤ 1 := by decide
/-- R126: a host write is taken while the reset pulse runs, and the pulse goes on where the host passes. -/
theorem witness_HostWritesOneByte_pulse : (State.resetOf dotSpi).busy = false ∧ (State.resetOf dotSpi).tr ≠ .ready ∧
    (nextOf (step { State.resetOf dotSpi with host := [.fbWrite 0 0xAA, .pass] })).map (fun s => (s.fb, s.tr)) =
      some ([(0, 0xAA)], .unreset) := by decide
theorem witness_HostReads : (showing []).busy = true ∧ active.busy = false ∧
    0 < active.cfg.height / 8 * active.cfg.width ∧ Memory.read active.fb 0 = some 0x55 ∧
    Memory.read { active with fb := [] }.fb 0 = none ∧ active.cfg.height / 8 * active.cfg.width ≤ 1 := by decide
theorem witness_ModeCommandsSetTheirRegister : active.t.fault = false := by decide
theorem witness_PointerAndDisplayCommandsSetTheirRegister : active.t.fault = false := by decide
theorem witness_ParameterCommandsSetTheirRegister : active.t.fault = false := by decide
theorem witness_CommandStreamDecode : active.t.fault = false ∧ active.t.pending = none ∧
    classify 0xB7 = .one (.cPage 7) ∧ (0x20 : Byte) = commandByte .addrMode ∧ outsideMap 0x80 = true ∧
    ({ active.t with pending := some .vcomDesel }).fault = false := by decide
theorem witness_DataByteIsStoredAtThePointers_stored : (pointing 7 131).t.fault = false ∧ (pointing 7 131).t.pending = none ∧
    pageValue (pointing 7 131).t = some 7 ∧ colValue (pointing 7 131).t = some 131 ∧ (131 : Byte) ≤ 131 := by decide
theorem witness_DataByteIsStoredAtThePointers_faults : (recvCmd 0x81 active.t).fault = false ∧ (recvCmd 0x81 active.t).pending ≠ none ∧
    pageValue Target.reset = none ∧ colValue Target.reset = none ∧ Target.reset.fault = false ∧
    (pointing 0 132).t.fault = false ∧ colValue (pointing 0 132).t = some 132 ∧ (131 : Byte) < 132 := by decide
theorem witness_FaultedShadowTakesNothing : ({ active with t := recvCmd 0x80 active.t }).t.fault = true ∧
    classify 0xAF = .one (.cDisp 1) := by decide
theorem witness_PositionsMakeTheirCall : (showing []).seq = .pageSel 0 ∧ 0 < (showing []).cfg.height / 8 ∧
    (busyAt full 0 0 (.rom 24) []).seq = .rom 24 ∧ (busyAt full 1 0 (.colLow 7) []).seq = .colLow 7 ∧
    (busyAt full 1 0 (.colHigh 7) []).seq = .colHigh 7 ∧ (busyAt full 4 0 (.tog 1) []).op = 4 ∧
    (busyAt full 2 0 (.tog 0) []).op = 2 ∧ (busyAt full 3 0 (.tog 0) []).op = 3 ∧
    (busyAt full 5 0 (.tog 0) []).op = 5 := by decide
theorem witness_PositionsMakeTheirCall_data :
    ({ showing [] with seq := .data 0 } : State).seq = .data 0 ∧ 0 < dot.height / 8 ∧ fbFull dot active.fb :=
  ⟨rfl, by decide, full_active⟩
theorem witness_PositionsFollowInOrder : 6 + 1 < full.height / 8 ∧ full.height / 8 ≤ 7 + 1 ∧ (5 : BitVec 3) ≠ 4 := by
  decide
theorem witness_RomIsTheSixteenSteps : dot.legal = true ∧ ({ dot with externalVcc := true }).legal = true := by decide
theorem witness_AnsweredOkAdvances_goes_on : mayCall (showing [.ok]) ∧
    (callAt (showing [.ok])).toOption = some (.wc 0xB0) ∧ succ dot 1 (.pageSel 0) ≠ .idle := by decide
theorem witness_AnsweredOkAdvances_ends : mayCall { showing [.ok] with seq := .data 0 } ∧
    (callAt { showing [.ok] with seq := .data 0 }).toOption = some (.wd [0x55]) ∧ succ dot 1 (.data 0) = .idle := by
  decide
theorem witness_AnsweredFailAborts : mayCall (showing [.fail 1 1]) ∧
    (callAt (showing [.fail 1 1])).toOption = some (.wc 0xB0) ∧ (showing [.fail 1 1]).script = [.fail 1 1] := by decide
theorem witness_UnansweredCallWaits : mayCall (showing [.wait]) ∧ (callAt (showing [.wait])).toOption = some (.wc 0xB0) ∧
    (showing [.wait]).script = [.wait] ∧ mayCall (showing []) ∧ (showing []).script = [] := by decide
theorem witness_UnansweredCallWaits_free :
    ∃ s', step { showing [] with script := [Config.freeAnswer 0] } = .next s' :=
  ⟨_, rfl⟩
theorem witness_ClearZeroesTheFrameBuffer : mayCall (busyAt dot 0 0 .clear []) ∧
    (busyAt dot 0 0 .clear []).seq = .clear ∧ 8 ≤ dot.height ∧ mayCall (busyAt { dot with height := 7 } 0 0 .clear []) ∧
    ({ dot with height := 7 }).height < 8 := by decide
theorem witness_ResetPulseRunsFirst_host :
    hostWaits { State.resetOf dotSpi with host := [.pass, .fbWrite 0 0xAA] } [.fbWrite 0 0xAA] ∧
    hostWaits { State.resetOf dotSpi with host := [.req 0x000] } [.req 0x000] :=
  ⟨.inl rfl, .inr ⟨rfl, .inr ⟨by decide, _, _, rfl⟩⟩⟩
theorem witness_ResetPulseRunsFirst : (State.resetOf dotSpi).cfg.legal = true ∧ dotSpi.transport = .spi ∧
    (State.resetOf dotSpi).tr = .unreset := by decide
theorem witness_I2cFrameOfACall : dot.transport = .i2c := by decide
theorem witness_SpiFrameOfACall : dotSpi.transport = .spi := by decide
theorem witness_WindowLiesInsideTheGram : full.legal = true ∧ 7 < pages full ∧ 131 < full.width := by decide
theorem witness_AddressBytesSetThePointers : full.legal = true ∧ 7 < pages full ∧ active.t.fault = false ∧
    active.t.pending = none := by decide
theorem witness_CanonicalMemoriesAreEqual : Memory.wf [(0, 0x55), (1055, 0xAA)] ∧
    ∀ a, Memory.read [(0, 0x55)] a = Memory.read (Memory.write [] 0 0x55) a := ⟨by decide, fun _ => rfl⟩
theorem witness_StickyStateStays : (nextOf (step { active with cfgWarn := true, t := recvCmd 0x80 active.t })).isSome =
    true ∧ (recvCmd 0x80 active.t).fault = true := by decide
theorem witness_LifecycleMoves :
    (nextOf (step { active with host := [.req 0x000] })).map (fun s => s.lc) = some .initializing ∧
    active.lc = .active := by decide
theorem witness_FrameBufferWriters :
    (nextOf (step { active with host := [.fbWrite 0 0xAA] })).map (fun s => s.fb) = some [(0, 0xAA)] := by decide
theorem witness_GramWriters : (nextOf (step { showing [.ok] with seq := .data 0, coloff := 65 })).map
    (fun s => s.t.gram) = some [(66, 0x55)] ∧ active.t.gram = [] := by decide
theorem witness_GramWriters_window : TargetInv sending ∧ sending.tin = [] ∧
    (nextOf (step sending)).map (fun s => s.t.gram) = some [(65, 0x55)] ∧
    (132 - sending.cfg.width) / 2 = 65 ∧ sending.cfg.width = 1 :=
  ⟨targetInv_sending, by decide, by decide, by decide, by decide⟩
theorem witness_OneCallAStep : (nextOf (step (showing [.ok]))).map (fun s => s.calls) =
    some [okCall (.wc 0xB0)] := by decide
theorem witness_StepKeepsTheInvariant : Inv (showing [.ok]) ∧ ∃ s', step (showing [.ok]) = .next s' :=
  ⟨inv_showing, _, rfl⟩
theorem witness_StepsStopOnlyOnForeignInput :
    faultOf (step { active with host := [.fbWrite 1 0xFF] }) = some (.fbOutOfRange 1) ∧
    refusalOf (step { active with tin := [.payload [0x80]] }) = some (.unknownFrame [0x80]) := by decide
theorem witness_StepsStopOnlyOnForeignInput_inv : Inv { active with host := [.fbWrite 1 0xFF] } ∧
    Inv { active with tin := [.payload [0x80]] } := by
  constructor <;> (constructor <;> try decide) <;> (intro _; exact full_active)
theorem witness_AnsweredStepsEndTheOperation : Inv (showing [.ok]) ∧ (showing [.ok]).busy = true ∧
    nextAnswer (showing [.ok]) ≠ .wait := ⟨inv_showing, by decide, by decide⟩
theorem witness_I2cWireIsTheFramedCallTrace : (showing [.ok]).cfg.transport = .i2c ∧
    (showing [.ok]).wire = [] ∧ (showing [.ok]).calls = [] ∧ (nextOf (step (showing [.ok]))).isSome = true := by decide
theorem witness_StepKeepsTheWireDiscipline : Inv (showing [.ok]) ∧
    wireOk dot.i2cAddr Lines.reset (showing [.ok]).wire = true ∧ (showing [.ok]).tr = .ready ∧
    (nextOf (step (showing [.ok]))).isSome = true := ⟨inv_showing, by decide, by decide, by decide⟩
theorem witness_StepKeepsTheTargetInvariant : TargetInv (showing [.ok]) ∧ (showing [.ok]).tin = [] ∧
    ∃ s', step (showing [.ok]) = .next s' := ⟨targetInv_showing, by decide, _, rfl⟩
theorem witness_EngineFaultsTheTargetOnlyBySetContrast : TargetInv swallowed ∧ swallowed.tin = [] ∧
    swallowed.t.fault = false ∧ (nextOf (step swallowed)).map (fun s => s.t.fault) = some true :=
  ⟨targetInv_swallowed, by decide, by decide, by decide⟩
theorem witness_ShowMakesNothingPending : Inv (showing [.ok]) ∧ pageOf (showing [.ok]).seq ≠ none ∧
    (showing [.ok]).t.pending = none ∧ (nextOf (step (showing [.ok]))).isSome = true :=
  ⟨inv_showing, by decide, by decide, by decide⟩
theorem witness_ShowMakesNothingPending_kept :
    (nextOf (step { showing [.fail 0 0] with t := { active.t with pending := some .contrast } })).map
      (fun s => s.t.pending) = some (some .contrast) ∧
    (nextOf (step { showing [.fail 1 1] with t := { active.t with pending := some .contrast } })).map
      (fun s => s.t.pending) = some none := by decide
theorem witness_ShowSendsTheFrame : mayDispatch (asked 0x100 [.ok, .ok, .ok, .ok]) ∧ active.lc = .active ∧
    (asked 0x100 []).host = [.req (hostWord 1 0x00)] ∧ fbFull dot active.fb ∧
    [Answer.ok, .ok, .ok, .ok] = List.replicate (4 * pages dot) .ok ++ [] :=
  ⟨by decide, by decide, by decide, full_active, by decide⟩
theorem witness_ShowFillsTheWindow : active.t.fault = false ∧ active.t.pending = none ∧ 0 < pages active.cfg := by
  decide
theorem witness_InitLeavesABlankActiveDisplay :
    mayDispatch (asked 0x0FF (List.replicate (25 + 4 * pages dot) .ok)) ∧
    (asked 0x0FF []).host = [.req (hostWord 0 0xFF)] ∧ active.t.fault = false := by decide
theorem witness_TogglesRunToTheirEnd : mayDispatch (asked 0x4AE [.ok, .ok]) ∧ active.lc = .active ∧
    (asked 0x4AE [.ok, .ok]).script = [.ok, .ok] ∧ (asked 0x200 []).host = [.req (hostWord 2 0x00)] ∧
    (asked 0x3FF []).host = [.req (hostWord 3 0xFF)] ∧ (asked 0x4AE []).host = [.req (hostWord 4 0xAE)] ∧
    (asked 0x5FF []).host = [.req (hostWord 5 0xFF)] := by decide
theorem witness_InvertTwiceIsNoInvert :
    mayDispatch { active with host := [.req 0x501, .req 0x500], script := [.ok, .ok] } ∧ active.lc = .active ∧
    active.t.invert = Reg.of 0 ∧ active.t.fault = false ∧ active.t.pending = none := by decide
theorem witness_ShowIsIdempotent :
    mayDispatch { active with host := [.req (hostWord 1 0x00), .req (hostWord 1 0xFF)],
                              script := List.replicate (8 * pages dot) .ok } ∧
    active.lc = .active ∧ fbFull dot active.fb := ⟨by decide, by decide, full_active⟩
theorem witness_FailedContrastSwallowsTheNextByte :
    mayDispatch { active with host := [.req (hostWord 4 0x40), .req (hostWord 3 0x00)],
                              script := [.ok, .fail 0 0, .ok] } ∧
    active.lc = .active ∧ active.t.fault = false ∧ active.t.pending = none := by decide

end Sys2Proof.Tests
end

section
/-! The configuration is a parameter (10_state.md R20): what a step leaves of it, and what an illegal one stops. -/

namespace Sys2Proof.Machine

/-! ### No step writes the configuration -/

@[simp] theorem clearFb_fields (s : State) :
    (clearFb s).cfg = s.cfg ∧ (clearFb s).op = s.op ∧ (clearFb s).arg = s.arg ∧
    (clearFb s).coloff = colOffset s.cfg ∧ (clearFb s).cfgWarn = s.cfgWarn ∧
    (clearFb s).fb = Memory.zero s.fb (fbSize s.cfg) ∧ (clearFb s).tr = s.tr ∧ (clearFb s).lines = s.lines ∧
    (clearFb s).t = s.t ∧ (clearFb s).calls = s.calls ∧ (clearFb s).wire = s.wire ∧ (clearFb s).host = s.host ∧
    (clearFb s).tin = s.tin ∧ (clearFb s).script = s.script ∧ (clearFb s).drawn = s.drawn := by
  simp [clearFb]

@[simp] theorem answered_fields (c : Call) (a : Answer) (s : State) :
    (answered c a s).cfg = s.cfg ∧ (answered c a s).op = s.op ∧ (answered c a s).arg = s.arg ∧
    (answered c a s).coloff = s.coloff ∧ (answered c a s).cfgWarn = s.cfgWarn ∧ (answered c a s).fb = s.fb ∧
    (answered c a s).tr = s.tr ∧ (answered c a s).host = s.host ∧ (answered c a s).tin = s.tin ∧
    (answered c a s).script = s.script ∧ (answered c a s).drawn = s.drawn := by
  cases a <;> simp [answered]

theorem Dispatched.cfg_eq {s s' : State} (h : Dispatched s s') : s'.cfg = s.cfg := by
  cases h <;> simp

theorem Stepped.cfg_eq {s s' : State} (h : Stepped s s') : s'.cfg = s.cfg := by
  cases h with
  | request _ _ _ _ _ _ hd => exact hd.cfg_eq
  | pulse | clear | call => simp
  | arrival | write | idle => rfl

theorem step_cfg {s s' : State} (h : step s = .next s') : s'.cfg = s.cfg :=
  (step_cases h).2.cfg_eq

/-! ### An illegal configuration has no behaviour -/

theorem step_illegal {s : State} (h : s.cfg.legal ≠ true) : step s = .refused .illegalConfig :=
  if_neg h

theorem offer_illegal {verdict : State → State} {s : State} (h : s.cfg.legal ≠ true) :
    offer verdict s = .refused .illegalConfig :=
  if_neg h

/-- Each of the seven host operations is an offer of its verdict (R121). -/
theorem exec_hostOperation (code : BitVec 1) (arg : Byte) (s : State) :
    ∀ i ∈ [Instr.hInit arg, .hShow arg, .hPowerOff arg, .hPowerOn arg, .hSetContrast arg, .hSetInvert arg,
      .hReserved code arg], exec i s = offer (hostVerdict i) s := by
  simp only [List.forall_mem_cons]
  exact ⟨rfl, rfl, rfl, rfl, rfl, rfl, rfl, List.forall_mem_nil _⟩

/-- Settles O15: a step is one of the moves of `Stepped`, none of which writes cfg; an illegal cfg fails the guard of
`step` and the guard of `offer`, which every host operation goes through. -/
theorem configurationIsAParameter : Obligations.ConfigurationIsAParameter := by
  unfold Obligations.ConfigurationIsAParameter
  refine ⟨fun s s' => step_cfg, fun s code arg hbad => ?_⟩
  have hl : s.cfg.legal ≠ true := by
    simpa only [ne_eq, legal_iff, and_assoc] using hbad
  refine ⟨step_illegal hl, fun i hi => ?_⟩
  rw [exec_hostOperation code arg s i hi]
  exact offer_illegal hl

end Sys2Proof.Machine
end

section
/-! The frame buffer is only read by a show (20_memory.md R75): the calls of a run of steps answered `ok`, the four
calls of a page, and the whole show as one run, whatever the traces and the target hold before it. -/

namespace Sys2Proof.Machine

/-! ### A run of calls answered `ok` -/

theorem nextAnswer_cons {s : State} {a : Answer} {more : List Answer} (h : s.script = a :: more) :
    nextAnswer s = a := by
  simp [nextAnswer, h]

theorem answerTaken_script {s : State} {a : Answer} {more : List Answer} (h : s.script = a :: more) :
    (answerTaken s).script = more := by
  simp [answerTaken, h]

@[simp] theorem answered_ok_calls (c : Call) (s : State) :
    (answered c .ok s).calls = s.calls ++ [okCall c] := by
  simp [answered, transferOk_eq, okCall]

@[simp] theorem answered_ok_seq (c : Call) (s : State) :
    (answered c .ok s).seq = succ s.cfg s.op s.seq := by
  simp only [answered, advance_eq]
  split <;> simp_all

/-- Only an `init` changes the lifecycle by completing (R123). -/
theorem answered_ok_lc (c : Call) {s : State} (h : s.op ≠ 0) : (answered c .ok s).lc = s.lc := by
  simp only [answered, advance_eq]
  split
  · exact if_neg h
  · simp

theorem answered_ok_busy (c : Call) {s : State} (h : succ s.cfg s.op s.seq ≠ .idle) :
    (answered c .ok s).busy = s.busy := by
  simp [answered, advance_eq, h]

theorem answered_ok_ends (c : Call) {s : State} (h : succ s.cfg s.op s.seq = .idle) :
    (answered c .ok s).busy = false ∧ (answered c .ok s).status = .ok := by
  simp [answered, advance_eq, h]

/-- One step for each of the calls `cs`, every one answered `ok`, leads from `s` to `s'`: the calls are what the
transport trace gains and the answers what the script loses; nothing the sequencer reads is written. -/
structure Sends (s : State) (cs : List Call) (s' : State) : Prop where
  runs : run cs.length s = .next s'
  calls : s'.calls = s.calls ++ cs.map okCall
  script : s.script = List.replicate cs.length .ok ++ s'.script
  cfg : s'.cfg = s.cfg
  op : s'.op = s.op
  coloff : s'.coloff = s.coloff
  fb : s'.fb = s.fb
  tr : s'.tr = s.tr
  host : s'.host = s.host
  lc : s.op ≠ 0 → s'.lc = s.lc

theorem Sends.trans {s s' s'' : State} {cs ds : List Call} (h : Sends s cs s') (h' : Sends s' ds s'') :
    Sends s (cs ++ ds) s'' where
  runs := by rw [List.length_append, run_add _ h.runs, h'.runs]
  calls := by simp [h'.calls, h.calls]
  script := by rw [h.script, h'.script, List.length_append, List.replicate_add, List.append_assoc]
  cfg := h'.cfg.trans h.cfg
  op := h'.op.trans h.op
  coloff := h'.coloff.trans h.coloff
  fb := h'.fb.trans h.fb
  tr := h'.tr.trans h.tr
  host := h'.host.trans h.host
  lc ho := (h'.lc (h.op ▸ ho)).trans (h.lc ho)

theorem Sends.script_left {s s' : State} {cs : List Call} {more : List Answer} (h : Sends s cs s')
    (hs : s.script = List.replicate cs.length .ok ++ more) : s'.script = more :=
  List.append_cancel_left (h.script.symm.trans hs)

/-- The step of a call that is answered `ok` (R122). -/
theorem sends_call {s : State} {c : Call} {more : List Answer} (hm : mayCall s) (hc : callAt s = .ok c)
    (hs : s.script = .ok :: more) : Sends s [c] (answered c .ok (answerTaken s)) := by
  obtain ⟨hl, hb, hr⟩ := hm
  have hstep : step s = .next (answered c .ok (answerTaken s)) := by
    rw [step_busy hl hb hr, engineStep_call hc, nextAnswer_cons hs]
  exact
    { runs := run_one hstep
      calls := by simp
      script := by simp [hs, answerTaken_script hs]
      cfg := by simp
      op := by simp
      coloff := by simp
      fb := by simp
      tr := by simp
      host := by simp
      lc := fun ho => by simp [answered_ok_lc c (s := answerTaken s) (by simpa using ho)] }

/-! ### The calls of a page -/

theorem colLowByte_eq (coloff : BitVec 7) : colLowByte coloff = BitVec.ofNat 8 (coloff.toNat % 16) := by
  revert coloff; decide

theorem colHighByte_eq (coloff : BitVec 7) : colHighByte coloff = BitVec.ofNat 8 (16 + coloff.toNat / 16) := by
  revert coloff; decide

/-- `COL_OFFSET` fits the seven bits of `COLOFF` (R25). -/
theorem colOffset_toNat (c : Cfg) : (colOffset c).toNat = (132 - c.width) / 2 := by
  simp only [colOffset, gramW, BitVec.toNat_ofNat]
  omega

/-- The slice of a page, read by its data write (R201). -/
theorem readFb_page {c : Cfg} {fb : Memory} {p : Nat} (hf : fbFull c fb) (hp : p < pages c) :
    readFb c fb (fbIndex c p 0) c.width = .ok (pageSlice c fb p) := by
  have hin : fbIndex c p 0 + c.width ≤ fbSize c := by
    have h : (p + 1) * c.width ≤ pages c * c.width := Nat.mul_le_mul_right _ hp
    rwa [Nat.succ_mul] at h
  exact readFb_full hf c.width _ hin

/-- A show of the frame buffer `fb` under the configuration `c` stands at position `q` and makes a call now (R122). -/
structure Showing (c : Cfg) (fb : Memory) (q : Seq) (s : State) : Prop where
  may_call : mayCall s
  cfg_eq : s.cfg = c
  fb_eq : s.fb = fb
  coloff : s.coloff = colOffset c
  seq : s.seq = q

/-- A show has completed (R123). -/
structure Completed (s : State) : Prop where
  busy : s.busy = false
  seq : s.seq = .idle
  status : s.status = .ok

section
variable {c : Cfg} {fb : Memory} {s : State} {p : Nat} {more : List Answer}

theorem Showing.callAt_pageSel (h : Showing c fb (.pageSel p) s) :
    callAt s = .ok (.wc (0xB0 ||| BitVec.ofNat 8 p)) := by
  simp [callAt, h.seq, pageByte]

theorem Showing.callAt_colLow (h : Showing c fb (.colLow p) s) :
    callAt s = .ok (.wc (BitVec.ofNat 8 ((132 - c.width) / 2 % 16))) := by
  simp [callAt, h.seq, h.coloff, colLowByte_eq, colOffset_toNat]

theorem Showing.callAt_colHigh (h : Showing c fb (.colHigh p) s) :
    callAt s = .ok (.wc (BitVec.ofNat 8 (16 + (132 - c.width) / 2 / 16))) := by
  simp [callAt, h.seq, h.coloff, colHighByte_eq, colOffset_toNat]

theorem Showing.callAt_data (h : Showing c fb (.data p) s) (hf : fbFull c fb) (hp : p < pages c) :
    callAt s = .ok (.wd (pageSlice c fb p)) := by
  simp [callAt, h.seq, h.cfg_eq, h.fb_eq, readFb_page hf hp]

/-- A call answered `ok` whose position has a successor leaves the show at that successor. -/
theorem Showing.sends_on {q : Seq} {call : Call} (h : Showing c fb q s) (hc : callAt s = .ok call)
    (hs : s.script = .ok :: more) (hq : succ c s.op q ≠ .idle) :
    ∃ s', Sends s [call] s' ∧ Showing c fb (succ c s.op q) s' ∧ s'.script = more := by
  have hsend := sends_call h.may_call hc hs
  obtain ⟨hl, hb, hr⟩ := h.may_call
  have hbusy := answered_ok_busy call (s := answerTaken s) (by simpa [h.cfg_eq, h.seq] using hq)
  refine ⟨_, hsend, ⟨⟨?_, ?_, ?_⟩, ?_, ?_, ?_, ?_⟩, hsend.script_left hs⟩
  · rwa [hsend.cfg]
  · simpa [hb] using hbusy
  · rwa [hsend.tr]
  · rw [hsend.cfg, h.cfg_eq]
  · rw [hsend.fb, h.fb_eq]
  · rw [hsend.coloff, h.coloff]
  · simp [h.cfg_eq, h.seq]

/-- A call answered `ok` at the last position completes the show. -/
theorem Showing.sends_last {q : Seq} {call : Call} (h : Showing c fb q s) (hc : callAt s = .ok call)
    (hs : s.script = .ok :: more) (hq : succ c s.op q = .idle) :
    ∃ s', Sends s [call] s' ∧ Completed s' ∧ s'.script = more := by
  have hsend := sends_call h.may_call hc hs
  obtain ⟨hbusy, hstatus⟩ := answered_ok_ends call (s := answerTaken s) (by simpa [h.cfg_eq, h.seq] using hq)
  exact ⟨_, hsend, ⟨hbusy, by simp [h.cfg_eq, h.seq, hq], hstatus⟩, hsend.script_left hs⟩

/-- The three address bytes of a page (R198 to R200) lead to its data write. -/
theorem Showing.sends_address (h : Showing c fb (.pageSel p) s) (hs : s.script = .ok :: .ok :: .ok :: more) :
    ∃ s', Sends s ((pageCalls c fb p).take 3) s' ∧ Showing c fb (.data p) s' ∧ s'.script = more := by
  obtain ⟨s₁, hsend₁, hshow₁, hs₁⟩ := h.sends_on h.callAt_pageSel hs (by simp [succ])
  obtain ⟨s₂, hsend₂, hshow₂, hs₂⟩ := hshow₁.sends_on hshow₁.callAt_colLow hs₁ (by simp [succ])
  obtain ⟨s₃, hsend₃, hshow₃, hs₃⟩ := hshow₂.sends_on hshow₂.callAt_colHigh hs₂ (by simp [succ])
  exact ⟨s₃, (hsend₁.trans hsend₂).trans hsend₃, hshow₃, hs₃⟩

/-- A page that is not the last: its four calls lead to the next page (R197). -/
theorem Showing.sends_page (h : Showing c fb (.pageSel p) s) (hf : fbFull c fb) (hp : p + 1 < pages c)
    (hs : s.script = .ok :: .ok :: .ok :: .ok :: more) :
    ∃ s', Sends s (pageCalls c fb p) s' ∧ Showing c fb (.pageSel (p + 1)) s' ∧ s'.script = more := by
  obtain ⟨s₁, haddr, hdata, hs₁⟩ := h.sends_address hs
  have hnext : succ c s₁.op (.data p) = .pageSel (p + 1) := by simp [succ, hp]
  obtain ⟨s₂, hsend, hshow, hs₂⟩ := hdata.sends_on (hdata.callAt_data hf (by omega)) hs₁ (by simp [hnext])
  exact ⟨s₂, haddr.trans hsend, hnext ▸ hshow, hs₂⟩

/-- The last page: its four calls complete the show (R197). -/
theorem Showing.sends_lastPage (h : Showing c fb (.pageSel p) s) (hf : fbFull c fb) (hp : p + 1 = pages c)
    (hs : s.script = .ok :: .ok :: .ok :: .ok :: more) :
    ∃ s', Sends s (pageCalls c fb p) s' ∧ Completed s' ∧ s'.script = more := by
  obtain ⟨s₁, haddr, hdata, hs₁⟩ := h.sends_address hs
  obtain ⟨s₂, hsend, hdone, hs₂⟩ :=
    hdata.sends_last (hdata.callAt_data hf (by omega)) hs₁ (by simp [succ, hp])
  exact ⟨s₂, haddr.trans hsend, hdone, hs₂⟩

/-! ### The whole show -/

/-- From page `p` on, the show sends the `k + 1` pages that are left and completes. -/
theorem Showing.sends_pages (hf : fbFull c fb) (k : Nat) (h : Showing c fb (.pageSel p) s)
    (hk : p + (k + 1) = pages c) (hs : s.script = List.replicate (4 * (k + 1)) .ok ++ more) :
    ∃ s', Sends s ((List.range' p (k + 1)).flatMap (pageCalls c fb)) s' ∧ Completed s' ∧ s'.script = more := by
  induction k generalizing p s with
  | zero =>
    obtain ⟨s', hsend, hdone, hs'⟩ := h.sends_lastPage hf hk (by simpa using hs)
    exact ⟨s', by simpa using hsend, hdone, hs'⟩
  | succ k ih =>
    have hsplit : s.script = .ok :: .ok :: .ok :: .ok :: (List.replicate (4 * (k + 1)) .ok ++ more) := by
      rw [hs, Nat.mul_succ 4 (k + 1), Nat.add_comm, List.replicate_add]
      rfl
    obtain ⟨s₁, hsend, hshow, hs₁⟩ := h.sends_page hf (by omega) hsplit
    obtain ⟨s₂, hsends, hdone, hs₂⟩ := ih hshow (by omega) hs₁
    exact ⟨s₂, by rw [List.range'_succ, List.flatMap_cons]; exact hsend.trans hsends, hdone, hs₂⟩

end

theorem decodeHost_show (arg : Byte) : decodeHost (hostWord 1 arg) = .hShow arg := by
  revert arg; decide

/-- The step that dispatches a request (R121). -/
theorem step_request {s : State} {w : HostWord} {rest : List HostMove} (hd : mayDispatch s)
    (hh : s.host = .req w :: rest) :
    step s = .next (hostVerdict (decodeHost w) { s with host := rest }) := by
  obtain ⟨hl, hb, hr⟩ := hd
  have hstep : step s = exec (decodeHost w) { s with host := rest } := by
    simp [step, hl, hb, hostStep, hh, hr]
  rw [hstep, exec_decodeHost]
  exact offer_now hl hb hr

/-- The step that dispatches a show in `Active` (R121, R196). -/
theorem step_show {s : State} {arg : Byte} {rest : List HostMove} (hd : mayDispatch s) (ha : s.lc = .active)
    (hh : s.host = .req (hostWord 1 arg) :: rest) :
    step s = .next (showEntry (latch 1 arg { s with host := rest })) := by
  rw [step_request hd hh, decodeHost_show]
  simp [hostVerdict, whenActive, ha]

theorem showEntry_noPages {s : State} (h : pages s.cfg = 0) :
    Completed (showEntry s) ∧ (s.op ≠ 0 → (showEntry s).lc = s.lc) := by
  simp only [showEntry, h, if_true]
  exact ⟨⟨by simp, by simp, by simp⟩, fun ho => if_neg ho⟩

theorem showEntry_pages {s : State} (hm : mayCall s) (h : 0 < pages s.cfg) :
    Showing s.cfg s.fb (.pageSel 0) (showEntry s) ∧ (showEntry s).lc = s.lc := by
  rw [showEntry, if_neg (Nat.ne_of_gt h)]
  exact ⟨⟨hm, rfl, rfl, rfl, rfl⟩, rfl⟩

@[simp] theorem frameCalls_length (c : Cfg) (fb : Memory) : (frameCalls c fb).length = 4 * pages c := by
  simp [frameCalls, pageCalls, List.length_flatMap, Nat.mul_comm]

/-- What the entry of a show leads to, all its calls answered `ok`: the whole frame, and completion. -/
theorem showEntry_sends {s : State} {more : List Answer} (hm : mayCall s) (ho : s.op ≠ 0) (hf : fbFull s.cfg s.fb)
    (hs : s.script = List.replicate (4 * pages s.cfg) .ok ++ more) :
    ∃ s', Sends (showEntry s) (frameCalls s.cfg s.fb) s' ∧ Completed s' ∧ s'.script = more ∧ s'.lc = s.lc := by
  cases hk : pages s.cfg with
  | zero =>
    obtain ⟨hdone, hlc⟩ := showEntry_noPages hk
    have hnone : frameCalls s.cfg s.fb = [] := by simp [frameCalls, hk]
    rw [hnone]
    exact ⟨_, by constructor <;> simp, hdone, by simp [hs, hk], hlc ho⟩
  | succ k =>
    obtain ⟨hshow, hlc⟩ := showEntry_pages hm (by omega)
    obtain ⟨s', hsend, hdone, hs'⟩ := hshow.sends_pages hf k (by omega) (by rw [← hk]; simpa using hs)
    refine ⟨s', ?_, hdone, hs', (hsend.lc (by simpa using ho)).trans hlc⟩
    rwa [frameCalls, hk, List.range_eq_range']

/-- A show in `Active` with a full frame buffer, all its calls answered `ok` (R204): what it sends depends on cfg and
FB alone, and it leaves a state that may dispatch the next request, cfg and FB unchanged. -/
theorem run_show {s : State} {arg : Byte} {rest : List HostMove} {more : List Answer} (hd : mayDispatch s)
    (ha : s.lc = .active) (hh : s.host = .req (hostWord 1 arg) :: rest) (hf : fbFull s.cfg s.fb)
    (hs : s.script = List.replicate (4 * pages s.cfg) .ok ++ more) :
    ∃ s', run (1 + 4 * pages s.cfg) s = .next s' ∧ s'.calls = s.calls ++ (frameCalls s.cfg s.fb).map okCall ∧
      Completed s' ∧ s'.lc = .active ∧ mayDispatch s' ∧ s'.cfg = s.cfg ∧ s'.fb = s.fb ∧
      s'.host = rest ∧ s'.script = more := by
  have hstep := step_show hd ha hh
  obtain ⟨hl, hb, hr⟩ := hd
  obtain ⟨s', hsend, hdone, hmore, hlc⟩ :=
    showEntry_sends (s := latch 1 arg { s with host := rest }) ⟨hl, rfl, hr⟩ (by simp) hf hs
  have hcfg : s'.cfg = s.cfg := by simpa using hsend.cfg
  refine ⟨s', ?_, by simpa using hsend.calls, hdone, by simpa [ha] using hlc, ⟨?_, hdone.busy, ?_⟩, hcfg,
    by simpa using hsend.fb, by simpa using hsend.host, hmore⟩
  · rw [run_step hstep]
    simpa using hsend.runs
  · rw [hcfg, hl]
  · simpa [hr] using hsend.tr

/-- Settles O59: the first show leaves a state that meets the hypotheses of `run_show` again with the same cfg and FB,
so both shows add the same frame. -/
theorem showIsIdempotent : Obligations.ShowIsIdempotent := by
  unfold Obligations.ShowIsIdempotent
  intro s arg arg' rest more hd ha hh hf hs
  have hsplit : s.script = List.replicate (4 * pages s.cfg) .ok ++ (List.replicate (4 * pages s.cfg) .ok ++ more) := by
    rw [hs, ← List.append_assoc, ← List.replicate_add, ← Nat.add_mul]
  obtain ⟨s₁, hrun₁, hcalls₁, _, ha₁, hd₁, hcfg₁, hfb₁, hh₁, hs₁⟩ := run_show hd ha hh hf hsplit
  obtain ⟨s₂, hrun₂, hcalls₂, _⟩ :=
    run_show hd₁ ha₁ hh₁ (by rwa [hcfg₁, hfb₁]) (by rwa [hcfg₁])
  rw [hcfg₁] at hrun₂
  rw [hcfg₁, hfb₁] at hcalls₂
  exact ⟨s₁, s₂, hrun₁, hrun₂, hcalls₁, hcalls₂, frameCalls_length s.cfg s.fb⟩

end Sys2Proof.Machine
end

section
/-! The frame of a call on the wire (45_transport_adapters.md R216, R221, R222): one equation per transport, and the
SPI frame of a call sent whole. -/

namespace Sys2Proof.Machine

/-- On I2C the frame is one transaction, however much of the call was sent. -/
theorem wireFrame_i2c {c : Cfg} (h : c.transport = .i2c) (call : Call) (sent : Nat) :
    wireFrame c call sent = [.i2cWr c.i2cAddr (i2cPayload call)] := by
  simp only [wireFrame, h]

theorem wireFrame_spi {c : Cfg} (h : c.transport = .spi) (call : Call) (sent : Nat) :
    wireFrame c call sent = spiFrame c.spiRate call sent := by
  simp only [wireFrame, h]

/-- A transfer that is not broken off sends every byte of its call. -/
theorem spiFrame_whole (rate : Nat) (call : Call) :
    spiFrame rate call call.bytes.length =
      [.spiCfg rate 0, .cs true, .dc call.isData, .cs false] ++ call.bytes.map .tx ++ [.cs true] := by
  rw [spiFrame, List.take_length]

/-- Settles O33: the one transaction of `wireFrame_i2c`, whose payload begins with the control byte of its kind. -/
theorem i2cFrameOfACall : Obligations.I2cFrameOfACall := by
  unfold Obligations.I2cFrameOfACall
  intro c n h
  exact ⟨fun b => wireFrame_i2c h (.wc b) n, fun bs => wireFrame_i2c h (.wd bs) n⟩

/-- Settles O34: a call of either kind is sent whole (`spiFrame_whole`), a command being a call of one byte. -/
theorem spiFrameOfACall : Obligations.SpiFrameOfACall := by
  unfold Obligations.SpiFrameOfACall
  intro c h
  constructor
  · intro b
    exact (wireFrame_spi h (.wc b) 1).trans (spiFrame_whole c.spiRate (.wc b))
  · intro bs
    exact (wireFrame_spi h (.wd bs) bs.length).trans (spiFrame_whole c.spiRate (.wd bs))

end Sys2Proof.Machine
end

section
/-! A request offered while busy or before the adapter is ready is held (40_host_operations.md R125): the step that
finds it at the head of the host's moves leaves them as they are. -/

namespace Sys2Proof.Machine

/-- A host that waits with a request at the head of its moves keeps all of them: it does not pass. -/
theorem hostWaits_request {s : State} {held : List HostMove} {w : HostWord} {rest : List HostMove}
    (hh : s.host = .req w :: rest) (h : hostWaits s held) : held = s.host := by
  rcases host_of_waits h with hheld | hpass
  · exact hheld.symm
  · simp [hh] at hpass

/-- The only move that takes a request off the host's list dispatches it, at rest and with the adapter ready. -/
theorem Stepped.keeps_heldRequest {s s' : State} {w : HostWord} {rest : List HostMove} (h : Stepped s s')
    (hh : s.host = .req w :: rest) (hold : s.busy = true ∨ s.tr ≠ .ready) : s'.host = s.host := by
  cases h with
  | clear | call => simp
  | pulse _ _ held hheld =>
    have hkeep : held = s.host := by
      rcases hheld with ⟨_, hbusy⟩ | ⟨_, hwait⟩
      · exact hbusy.symm
      · exact hostWaits_request hh hwait
    simpa using hkeep
  | arrival _ _ _ _ _ _ _ _ hwait => exact hostWaits_request hh hwait
  | idle _ _ _ hwait => exact hostWaits_request hh hwait
  | request hb _ _ _ hr =>
    rcases hold with hbusy | hpulse
    · simp [hb] at hbusy
    · exact absurd hr hpulse
  | write _ _ _ _ hwrite => simp [hh] at hwrite

/-- Settles O13: every host operation is an offer (`exec_hostOperation`), which is held (`offer_held`), and a step
keeps a held request on the host's list (`Stepped.keeps_heldRequest`). -/
theorem requestsAreHeld : Obligations.RequestsAreHeld := by
  unfold Obligations.RequestsAreHeld
  intro s code arg hl
  constructor
  · intro hold i hi
    rw [exec_hostOperation code arg s i hi]
    exact offer_held hl hold
  · intro hold w rest s' hh hstep
    exact (step_cases hstep).2.keeps_heldRequest hh hold

end Sys2Proof.Machine
end

section
/-! The init ROM as a command stream (42_init_sequence.md R171): how a stream begins (R95), and the sixteen steps. -/

namespace Sys2Proof.Machine

section
variable {n : Nat} {rest : List Byte} {is : List Instr}

/-- A stream that begins with a one-byte command holds it and then what the rest holds (R95). -/
theorem decodeStream_one {b : Byte} {i : Instr} (hb : classify b = .one i) (hrest : decodeStream n rest = .ok is) :
    decodeStream (n + 1) (b :: rest) = .ok (i :: is) := by
  simp [decodeStream, decodeCommand, hb, hrest]

/-- A stream that begins with a two-byte command takes the byte after it as its parameter, whatever that is (R95). -/
theorem decodeStream_two (m : TwoByte) (p : Byte) (hrest : decodeStream n rest = .ok is) :
    decodeStream (n + 1) (commandByte m :: p :: rest) = .ok (withParam m p :: is) := by
  simp [decodeStream, decodeCommand, hrest]

end

/-- Settles O27: the sixteen steps in the order of R171, each by how a stream that begins with it decodes
(`decodeStream_one`, `decodeStream_two`). A parameter byte may be any byte, so the three that depend on cfg need no
case split, and it does not matter whether cfg is legal. -/
theorem romIsTheSixteenSteps : Obligations.RomIsTheSixteenSteps := by
  unfold Obligations.RomIsTheSixteenSteps
  intro c _
  have hend : decodeStream 0 [] = .ok [] := rfl
  exact
    decodeStream_one (b := 0xAE) (by decide) <|
    decodeStream_two .addrMode 0x00 <|
    decodeStream_one (b := 0x40) (by decide) <|
    decodeStream_one (b := 0xA1) (by decide) <|
    decodeStream_two .muxRatio (BitVec.ofNat 8 (c.height - 1)) <|
    decodeStream_one (b := 0xC8) (by decide) <|
    decodeStream_two .dispOffset 0x00 <|
    decodeStream_two .comPins 0x12 <|
    decodeStream_two .clkDiv 0x80 <|
    decodeStream_two .precharge (if c.externalVcc then 0x22 else 0xF1) <|
    decodeStream_two .vcomDesel 0x30 <|
    decodeStream_two .contrast 0xFF <|
    decodeStream_one (b := 0xA4) (by decide) <|
    decodeStream_one (b := 0xA6) (by decide) <|
    decodeStream_two .chargePump (if c.externalVcc then 0x10 else 0x14) <|
    decodeStream_one (b := 0xAF) (by decide) hend

end Sys2Proof.Machine
end

section
/-! The one transport call of each sequencer position (44_show_frame_sequencer.md R198 to R201, 42_init_sequence.md
R173, 43_runtime_toggles.md R185): one equation per kind of position, and what the slice of a page holds. -/

namespace Sys2Proof.Machine

/-! ### The call of a position -/

section
variable {s : State} {p : Nat}

theorem callAt_rom {i : Fin 25} (h : s.seq = .rom i) : callAt s = .ok (.wc (romByte s.cfg i)) := by
  simp [callAt, h]

theorem callAt_pageSel (h : s.seq = .pageSel p) : callAt s = .ok (.wc (0xB0 ||| BitVec.ofNat 8 p)) := by
  simp [callAt, h, pageByte]

theorem callAt_colLow (h : s.seq = .colLow p) :
    callAt s = .ok (.wc (BitVec.ofNat 8 (s.coloff.toNat % 16))) := by
  simp [callAt, h, colLowByte_eq]

theorem callAt_colHigh (h : s.seq = .colHigh p) :
    callAt s = .ok (.wc (BitVec.ofNat 8 (16 + s.coloff.toNat / 16))) := by
  simp [callAt, h, colHighByte_eq]

theorem callAt_data (h : s.seq = .data p) (hp : p < pages s.cfg) (hf : fbFull s.cfg s.fb) :
    callAt s = .ok (.wd (pageSlice s.cfg s.fb p)) := by
  simp [callAt, h, readFb_page hf hp]

theorem callAt_tog {k : Fin 2} {b : Byte} (h : s.seq = .tog k) (hb : togByte s.op s.arg k = some b) :
    callAt s = .ok (.wc b) := by
  simp [callAt, h, hb]

end

/-! ### The bytes of a call -/

@[simp] theorem pageSlice_length (c : Cfg) (fb : Memory) (p : Nat) : (pageSlice c fb p).length = c.width := by
  simp [pageSlice]

/-- The slice of a page holds the bytes of a full frame buffer unaltered, in ascending column (R201). -/
theorem pageSlice_getElem? {c : Cfg} {fb : Memory} {p x : Nat} (hf : fbFull c fb) (hp : p < pages c)
    (hx : x < c.width) : (pageSlice c fb p)[x]? = Memory.read fb (fbIndex c p x) := by
  obtain ⟨v, hv⟩ := hf (fbIndex c p x) (fbIndex_lt hp hx)
  simp [pageSlice, hx, hv]

/-- The byte of `H_SET_INVERT` is chosen by bit 0 of the operand alone (R185). -/
theorem togByte_invert (arg : Byte) : togByte 5 arg 0 = some (if arg.getLsbD 0 then 0xA7 else 0xA6) := by
  revert arg; decide

/-- Settles O25: the equation of the position's kind; for a data position also what its slice holds
(`pageSlice_getElem?`), and for a toggle position the byte `togByte` gives the operation. -/
theorem positionsMakeTheirCall : Obligations.PositionsMakeTheirCall := by
  unfold Obligations.PositionsMakeTheirCall
  intro s
  refine ⟨fun _ => callAt_rom, fun _ => callAt_pageSel, fun _ => callAt_colLow, fun _ => callAt_colHigh,
    ?data, ?off, ?on, ?contrast, ?level, ?invert⟩
  case data =>
    intro p hq hp hf
    exact ⟨callAt_data hq hp hf, pageSlice_length .., fun x hx => (pageSlice_getElem? hf hp hx).symm⟩
  case off | on | contrast | level => intro hq ho; exact callAt_tog hq (by rw [ho]; rfl)
  case invert => intro hq ho; exact callAt_tog hq (by rw [ho]; exact togByte_invert _)

end Sys2Proof.Machine
end

section
/-! The decoder and the encoder are inverse (30_encoding.md sections 1 to 3 and 7): the fields of a host word, the
command byte map, and what an image of each kind decodes to. -/

namespace Sys2Proof.Machine

/-! ### Host words -/

theorem hostWord_operand (op : BitVec 3) (arg : Byte) : (hostWord op arg).extractLsb' 0 8 = arg :=
  BitVec.extractLsb'_append_eq_right

theorem hostWord_code (op : BitVec 3) (arg : Byte) : (hostWord op arg).extractLsb' 8 3 = op :=
  BitVec.extractLsb'_append_eq_left

theorem hostWord_lowCodeBit (op : BitVec 3) (arg : Byte) :
    (hostWord op arg).extractLsb' 8 1 = op.extractLsb' 0 1 :=
  BitVec.extractLsb'_append_eq_of_le (Nat.le_refl 8)

/-- A host word is its operation code and its operand (R90). -/
theorem hostWord_fields (w : HostWord) : hostWord (w.extractLsb' 8 3) (w.extractLsb' 0 8) = w :=
  (BitVec.extractLsb'_append_extractLsb'_eq_extractLsb' rfl).trans BitVec.extractLsb'_eq_self

/-- The operation code of a host word selects the request, the operand is kept whole (R90, R91). -/
@[simp] theorem decodeHost_hostWord (arg : Byte) :
    decodeHost (hostWord 0#3 arg) = .hInit arg ∧ decodeHost (hostWord 1#3 arg) = .hShow arg ∧
    decodeHost (hostWord 2#3 arg) = .hPowerOff arg ∧ decodeHost (hostWord 3#3 arg) = .hPowerOn arg ∧
    decodeHost (hostWord 4#3 arg) = .hSetContrast arg ∧ decodeHost (hostWord 5#3 arg) = .hSetInvert arg ∧
    ∀ code : BitVec 1, decodeHost (hostWord (3#2 ++ code) arg) = .hReserved code arg := by
  simp only [decodeHost, hostWord_operand, hostWord_code, hostWord_lowCodeBit]
  refine ⟨rfl, rfl, rfl, rfl, rfl, rfl, fun code => ?_⟩
  revert code arg
  decide

theorem operationCode_cases (op : BitVec 3) :
    op = 0 ∨ op = 1 ∨ op = 2 ∨ op = 3 ∨ op = 4 ∨ op = 5 ∨ ∃ code : BitVec 1, op = (0b11 : BitVec 2) ++ code := by
  revert op; decide

theorem encode_decodeHost (w : HostWord) : encode (decodeHost w) = .host w ∧ (decodeHost w).wf = true := by
  rw [← hostWord_fields w]
  rcases operationCode_cases (w.extractLsb' 8 3) with h | h | h | h | h | h | ⟨code, h⟩ <;> rw [h] <;>
    simp [encode, Instr.wf]

/-! ### The command stream -/

/-- A byte that is a whole command is an image by itself. -/
theorem decode_one {b : Byte} {i : Instr} (h : classify b = .one i) : decode (.command [b]) = .ok i := by
  simp [decode, decodeCommand, h]

/-- A two-byte command takes the byte after its own as the parameter, whatever that is (R95). -/
theorem decode_two (m : TwoByte) (p : Byte) : decode (.command [commandByte m, p]) = .ok (withParam m p) := by
  simp [decode, decodeCommand]

/-- Everything a command image decodes to: a one-byte command, or a two-byte command with its parameter. -/
theorem decode_command_cases {bs : List Byte} {i : Instr} (h : decode (.command bs) = .ok i) :
    (∃ b, bs = [b] ∧ classify b = .one i) ∨ ∃ m p, bs = [commandByte m, p] ∧ i = withParam m p := by
  cases bs with
  | nil => simp [decode, decodeCommand] at h
  | cons b rest =>
    cases hb : classify b with
    | unmapped => simp [decode, decodeCommand, hb] at h
    | one j =>
      refine .inl ⟨b, ?_⟩
      cases rest <;> simp_all [decode, decodeCommand]
    | two m =>
      obtain rfl := classify_two hb
      refine .inr ⟨m, ?_⟩
      rcases rest with _ | ⟨p, _ | ⟨q, rest⟩⟩ <;> simp_all [decode, decodeCommand]

/-- A byte that is a whole command is what that command encodes to (R93). -/
theorem encode_of_classify {b : Byte} {i : Instr} (h : classify b = .one i) :
    encode i = .command [b] ∧ i.wf = true := by
  have key : ∀ b : Byte, (match classify b with
      | .one i => decide (encode i = .command [b]) && i.wf
      | _ => true) = true := by decide
  simpa [h] using key b

theorem encode_withParam (m : TwoByte) (p : Byte) :
    encode (withParam m p) = .command [commandByte m, p] ∧ (withParam m p).wf = true := by
  cases m <;> exact ⟨rfl, rfl⟩

/-- A one-byte command is encoded as the byte that selects it, at every value of its field (R93). -/
theorem decode_encode_oneByte {i : Instr} (h : isOneByte i = true) : decode (encode i) = .ok i := by
  cases i with
  | cColLow n => exact decode_one (by revert n; decide)
  | cColHigh n => exact decode_one (by revert n; decide)
  | cStartLine line => exact decode_one (by revert line; decide)
  | cSegRemap r => exact decode_one (by revert r; decide)
  | cEntireOn => exact decode_one (by decide)
  | cNormInv v => exact decode_one (by revert v; decide)
  | cDisp on => exact decode_one (by revert on; decide)
  | cPage page => exact decode_one (by revert page; decide)
  | cComScan d => exact decode_one (by revert d; decide)
  | _ => simp [isOneByte] at h

/-- Settles O5, by the kind of the image: a host word by its fields (`decodeHost_hostWord`), a command byte by the map
(`decode_encode_oneByte`, `decode_two`), an I2C payload by its control byte. -/
theorem decodeOfEncode : Obligations.DecodeOfEncode := by
  unfold Obligations.DecodeOfEncode
  intro i hwf
  cases i with
  | hInit | hShow | hPowerOff | hPowerOn | hSetContrast | hSetInvert | hReserved => simp [decode, encode]
  | cColLow | cColHigh | cStartLine | cSegRemap | cEntireOn | cNormInv | cDisp | cPage | cComScan =>
    exact decode_encode_oneByte rfl
  | cAddrMode p => exact decode_two .addrMode p
  | cContrast p => exact decode_two .contrast p
  | cChargePump p => exact decode_two .chargePump p
  | cMuxRatio p => exact decode_two .muxRatio p
  | cDispOffset p => exact decode_two .dispOffset p
  | cClkDiv p => exact decode_two .clkDiv p
  | cPrecharge p => exact decode_two .precharge p
  | cComPins p => exact decode_two .comPins p
  | cVcomDesel p => exact decode_two .vcomDesel p
  | i2cCtrlCmd b => rfl
  | i2cCtrlData bs =>
    cases bs with
    | nil => simp [Instr.wf] at hwf
    | cons v vs => rfl

/-- Settles O6, by the kind of the image: what each kind can decode to (`decode_command_cases`, `decodeFrame_cases`)
and what that is encoded as. -/
theorem encodeOfDecode : Obligations.EncodeOfDecode := by
  unfold Obligations.EncodeOfDecode
  intro image i h
  cases image with
  | host w =>
    obtain rfl : decodeHost w = i := by simpa [decode] using h
    exact encode_decodeHost w
  | command bs =>
    rcases decode_command_cases h with ⟨b, rfl, hb⟩ | ⟨m, p, rfl, rfl⟩
    · exact encode_of_classify hb
    · exact encode_withParam m p
  | frame payload =>
    rcases decodeFrame_cases h with ⟨b, rfl, rfl⟩ | ⟨v, vs, rfl, rfl⟩ <;> exact ⟨rfl, rfl⟩

/-! ### The words and bytes the spec writes out -/

/-- Settles O3: each word by what the decoder makes of its kind, the words being fixed. -/
theorem specWordsDecode : Obligations.SpecWordsDecode := by
  unfold Obligations.SpecWordsDecode
  decide

/-- The byte map and the decoder's classification agree: outside the ranges of R99 a byte is mapped by exactly one
row of R93, inside them by none. -/
theorem commandRows_count (b : Byte) :
    commandRows.countP (selects b) = (if outsideMap b then 0 else 1) ∧
      (classify b = .unmapped ↔ outsideMap b = true) := by
  revert b; decide

theorem classify_unmapped_iff (b : Byte) : classify b = .unmapped ↔ outsideMap b = true :=
  (commandRows_count b).2

/-- Settles O4, from the agreement of the byte map, the rows and the ranges (`commandRows_count`). -/
theorem commandByteMapIsExact : Obligations.CommandByteMapIsExact := by
  unfold Obligations.CommandByteMapIsExact
  intro b
  obtain ⟨hcount, hmap⟩ := commandRows_count b
  constructor
  · intro hout
    refine ⟨by simpa [hout] using hcount, ?_⟩
    simp [decode, decodeCommand, hmap.mpr hout]
  · intro hin
    exact ⟨by simpa [hin] using hcount, fun hun => by simp [hmap.mp hun] at hin⟩

end Sys2Proof.Machine
end

section
/-! One transport call (45_transport_adapters.md): what the target hears of its frame on either transport, the lines
and the discipline of an SPI transfer, and what each answer makes of the state (R122, R250 to R252). -/

namespace Sys2Proof.Machine

/-! ### The frame of a call, as the target hears it -/

/-- A payload the I2C adapter sends is taken in as its call (R217). -/
theorem hearPayload_i2cPayload (call : Call) (t : Target) : hearPayload (i2cPayload call) t = recvCall call t := by
  cases call with
  | wc b => rfl
  | wd bs => cases bs <;> rfl

/-- What is heard of an SPI transfer that was not broken off: its bytes, at the entry point `DC` chooses (R223). -/
theorem hear_spiFrame (addr : BitVec 7) (rate : Nat) (call : Call) (l : Lines) (t : Target) :
    hear addr (spiFrame rate call call.bytes.length) l t = recvCall call t := by
  have hselect : ∀ t, hear addr [.spiCfg rate 0, .cs true, .dc call.isData, .cs false] l t = t := fun _ => rfl
  have hrelease : ∀ l t, hear addr [.cs true] l t = t := fun _ _ => rfl
  rw [spiFrame_whole, hear_append, hear_append, hselect, hrelease, hear_tx _ _ _ rfl]
  cases call <;> rfl

theorem hear_wireFrame (c : Cfg) (call : Call) (l : Lines) (t : Target) :
    hear c.i2cAddr (wireFrame c call call.bytes.length) l t = recvCall call t := by
  cases ht : c.transport with
  | i2c => simp [wireFrame_i2c ht, hear, hearEvent, hearPayload_i2cPayload]
  | spi => rw [wireFrame_spi ht, hear_spiFrame]

/-- Settles O36: the payload of the I2C frame (`hearPayload_i2cPayload`) and the bytes of the SPI frame
(`hear_spiFrame`) both reach the entry points as the call. -/
theorem adaptersDeliverAlike : Obligations.AdaptersDeliverAlike := by
  unfold Obligations.AdaptersDeliverAlike
  exact hear_wireFrame

/-! ### The discipline of a frame -/

/-- The lines once a transfer has selected the target: `DC` tells a command from data (R221, R222). -/
def selectedLines (rate : Nat) (call : Call) (l : Lines) : Lines :=
  { l with cs := false, dc := call.isData, bus := { has := true, rate := rate, mode := 0 } }

theorem drive_select (rate : Nat) (call : Call) (l : Lines) :
    [WireEvent.spiCfg rate 0, .cs true, .dc call.isData, .cs false].foldl Lines.drive l =
      selectedLines rate call l := rfl

/-- Whatever the lines were, a transfer moves `DC` only while not selected and sends bytes only while selected. -/
theorem wireOk_spiFrame (addr : BitVec 7) (rate : Nat) (call : Call) (sent : Nat) (l : Lines) :
    wireOk addr l (spiFrame rate call sent) = true := by
  rw [spiFrame, wireOk_append, wireOk_append, drive_select, wireOk_tx _ _ rfl]
  rfl

theorem selectedBytes_spiFrame (rate : Nat) (call : Call) (sent : Nat) (l : Lines) :
    selectedBytes l (spiFrame rate call sent) = (call.bytes.take sent).map fun b => (call.isData, b) := by
  have hselect : selectedBytes l (spiFrame rate call sent) =
      selectedBytes (selectedLines rate call l) ((call.bytes.take sent).map .tx ++ [.cs true]) := rfl
  rw [hselect, selectedBytes_tx _ _ rfl]
  simp [selectedBytes, selectedLines]

theorem spiFrame_lines (rate : Nat) (call : Call) (sent : Nat) (l : Lines) :
    (spiFrame rate call sent).foldl Lines.drive l = { selectedLines rate call l with cs := true } := by
  rw [spiFrame, List.foldl_append, List.foldl_append, drive_select, drive_tx]
  rfl

/-- Settles O35, from what a transfer sends (`selectedBytes_spiFrame`), its discipline (`wireOk_spiFrame`) and the
lines it leaves (`spiFrame_lines`). -/
theorem spiLinesDuringATransfer : Obligations.SpiLinesDuringATransfer := by
  unfold Obligations.SpiLinesDuringATransfer
  intro rate c sent l
  rw [spiFrame_lines]
  exact ⟨selectedBytes_spiFrame rate c sent l, wireOk_spiFrame 0 rate c sent l, rfl, rfl⟩

/-! ### The answers to a call -/

theorem answerTaken_cons {s : State} {a : Answer} {more : List Answer} (h : s.script = a :: more) :
    answerTaken s = { s with script := more } := by
  simp [answerTaken, h]

theorem answerTaken_nil {s : State} (h : s.script = []) : answerTaken s = { s with drawn := s.drawn + 1 } := by
  simp [answerTaken, h]

theorem nextAnswer_nil {s : State} (h : s.script = []) : nextAnswer s = Config.freeAnswer s.drawn := by
  simp [nextAnswer, h]

/-- A call answered `ok` is delivered as it is handed over, on either transport. -/
theorem transferOk_recvCall (c : Call) (s : State) :
    transferOk c s = { s with
      t := recvCall c s.t, wire := s.wire ++ wireFrame s.cfg c c.bytes.length,
      lines := linesAfter s.cfg c s.lines, calls := s.calls ++ [okCall c] } := by
  rw [transferOk_eq, hear_wireFrame]
  rfl

/-- A call answered `ok` at the last position of an operation completes it (R123). -/
theorem answered_ok_last (c : Call) {s : State} (h : succ s.cfg s.op s.seq = .idle) :
    answered c .ok s = complete (transferOk c s) := by
  rw [answered, advance_eq, if_pos (by simpa using h)]

/-- A call answered `ok` at any other position leads to its successor (R122). -/
theorem answered_ok_next (c : Call) {s : State} (h : succ s.cfg s.op s.seq ≠ .idle) :
    answered c .ok s = { transferOk c s with seq := succ s.cfg s.op s.seq } := by
  rw [answered, advance_eq, if_neg (by simpa using h)]
  simp

/-- The step of a call, whatever the answer. -/
theorem step_call {s : State} {c : Call} (hm : mayCall s) (hc : callAt s = .ok c) :
    step s = .next (answered c (nextAnswer s) (answerTaken s)) := by
  obtain ⟨hl, hb, hr⟩ := hm
  rw [step_busy hl hb hr, engineStep_call hc]

/-- The step of a call whose answer stands in the script. -/
theorem step_answered {s : State} {c : Call} {a : Answer} {rest : List Answer} (hm : mayCall s)
    (hc : callAt s = .ok c) (hs : s.script = a :: rest) :
    step s = .next (answered c a { s with script := rest }) := by
  rw [step_call hm hc, nextAnswer_cons hs, answerTaken_cons hs]

/-- Settles O28: the transfer as the target hears it (`transferOk_recvCall`), then the successor (`answered_ok_next`)
or completion (`answered_ok_last`). -/
theorem answeredOkAdvances : Obligations.AnsweredOkAdvances := by
  unfold Obligations.AnsweredOkAdvances
  intro s c rest hm hc hs
  rw [step_answered hm hc hs]
  constructor
  · intro hnext
    rw [answered_ok_next c (s := { s with script := rest }) hnext, transferOk_recvCall]
    rfl
  · intro hlast
    rw [answered_ok_last c (s := { s with script := rest }) hlast, transferOk_recvCall]
    rfl

/-- Settles O29: the part of the transfer that took place (`transferFail_eq`), then BusError at the position. -/
theorem answeredFailAborts : Obligations.AnsweredFailAborts := by
  unfold Obligations.AnsweredFailAborts
  refine ⟨rfl, fun s c sent received rest hm hc hs => ?_⟩
  rw [step_answered hm hc hs, answered, transferFail_eq]
  cases c <;> rfl

/-- How many free answers have been taken plays no part in what an answer does. -/
theorem answered_drawn (c : Call) (a : Answer) (s : State) (n : Nat) :
    answered c a { s with drawn := n } = { answered c a s with drawn := n } := by
  cases a with
  | wait | fail => rfl
  | ok =>
    simp only [answered, transferOk_recvCall, advance_eq]
    split <;> rfl

/-- Settles O30: an unanswered call leaves the state the answer was taken from; a free answer is taken as the same
answer in the script would be, but for the counter (`answered_drawn`). -/
theorem unansweredCallWaits : Obligations.UnansweredCallWaits := by
  unfold Obligations.UnansweredCallWaits
  intro s c hm hc
  constructor
  · intro rest hs
    rw [step_answered hm hc hs]
    rfl
  · intro hs s' hstep
    have hsame : ({ s with script := [] } : State) = s := by rw [← hs]
    have hlisted : step { s with script := [Config.freeAnswer s.drawn] } =
        .next (answered c (Config.freeAnswer s.drawn) { s with script := [] }) := step_answered hm hc rfl
    rw [hlisted, hsame] at hstep
    cases hstep
    rw [step_call hm hc, nextAnswer_nil hs, answerTaken_nil hs, answered_drawn]

end Sys2Proof.Machine
end

section
/-! The sequencer (42_init_sequence.md, 44_show_frame_sequencer.md): the successors, the entry of a show, and
`Clear`. -/

namespace Sys2Proof.Machine

/-! ### The successor of each position -/

section
variable {c : Cfg} {op : BitVec 3} {p : Nat}

theorem succ_rom {i : Fin 25} (h : i.val + 1 < 25) : succ c op (.rom i) = .rom ⟨i.val + 1, h⟩ := dif_pos h

theorem succ_lastRom : succ c op (.rom 24) = .clear := rfl

theorem succ_data (h : p + 1 < pages c) : succ c op (.data p) = .pageSel (p + 1) := if_pos h

theorem succ_lastData (h : pages c ≤ p + 1) : succ c op (.data p) = .idle := if_neg (by omega)

theorem succ_tog (h : op ≠ 4) : succ c op (.tog 0) = .idle := if_neg fun hk => h hk.2

end

/-- Settles O26, one successor after the other. -/
theorem positionsFollowInOrder : Obligations.PositionsFollowInOrder := by
  unfold Obligations.PositionsFollowInOrder
  intro c op p
  exact ⟨fun i => succ_rom (Nat.succ_lt_succ i.isLt), succ_lastRom, rfl, rfl, rfl, succ_data, succ_lastData,
    rfl, succ_tog, rfl⟩

/-! ### The entry of a show -/

/-- With a page to send, a show starts at it (R196). -/
theorem showEntry_first {s : State} (h : 0 < pages s.cfg) :
    showEntry s = { s with coloff := colOffset s.cfg, seq := .pageSel 0 } :=
  if_neg (Nat.ne_of_gt h)

/-- With no page to send, it completes at once (R196). -/
theorem showEntry_none {s : State} (h : pages s.cfg = 0) :
    showEntry s = complete { s with coloff := colOffset s.cfg } :=
  if_pos h

/-- Everything the entry of a show does (R196). -/
theorem showEntry_cases (s : State) :
    (0 < pages s.cfg ∧ showEntry s = { s with coloff := colOffset s.cfg, seq := .pageSel 0 }) ∨
    (pages s.cfg = 0 ∧ showEntry s = complete { s with coloff := colOffset s.cfg }) := by
  rcases Nat.eq_zero_or_pos (pages s.cfg) with hp | hp
  · exact .inr ⟨hp, showEntry_none hp⟩
  · exact .inl ⟨hp, showEntry_first hp⟩

/-- Everything `Clear` does (R174): it zeroes FB and enters the show. -/
theorem clearFb_cases (s : State) :
    (0 < pages s.cfg ∧ clearFb s = { s with
      fb := Memory.zero s.fb (fbSize s.cfg), coloff := colOffset s.cfg, seq := .pageSel 0 }) ∨
    (pages s.cfg = 0 ∧ clearFb s = complete { s with
      fb := Memory.zero s.fb (fbSize s.cfg), coloff := colOffset s.cfg }) :=
  showEntry_cases { s with fb := Memory.zero s.fb (fbSize s.cfg) }

theorem pages_pos {c : Cfg} (h : 8 ≤ c.height) : 0 < pages c := by simp only [pages]; omega

theorem pages_zero {c : Cfg} (h : c.height < 8) : pages c = 0 := by simp only [pages]; omega

/-- Settles O31: FB is zeroed below its size (`read_zero`) and the show entered. -/
theorem clearZeroesTheFrameBuffer : Obligations.ClearZeroesTheFrameBuffer := by
  unfold Obligations.ClearZeroesTheFrameBuffer
  intro s ⟨hl, hb, hr⟩ hq
  have hstep : step s = .next (showEntry { s with fb := Memory.zero s.fb (fbSize s.cfg) }) := by
    rw [step_busy hl hb hr, engineStep_clear hq, clearFb]
  refine ⟨Memory.zero s.fb (fbSize s.cfg), fun a ha => ?below, fun a ha => ?above, fun h => ?shows, fun h => ?ends⟩
  case below => rw [read_zero]; exact if_pos ha
  case above => rw [read_zero]; exact if_neg (Nat.not_lt.mpr ha)
  case shows => exact hstep.trans (congrArg Host.Outcome.next (showEntry_first (pages_pos h)))
  case ends => exact hstep.trans (congrArg Host.Outcome.next (showEntry_none (pages_zero h)))

end Sys2Proof.Machine
end

section
/-! The machine's invariant (10_state.md, 60_exceptions.md section 2): each update of the state keeps it, the
positions of an operation follow one another, and so every step keeps it. -/

namespace Sys2Proof.Machine

/-! ### The positions of an operation -/

section
variable {c : Cfg} {op : BitVec 3} {q : Seq}

theorem positionFits_ne_idle (h : positionFits c op q = true) : q ≠ .idle := by
  rintro rfl; simp [positionFits] at h

/-- Where an operation does not end, its next position is again one of its own. -/
theorem positionFits_succ (h : positionFits c op q = true) (hs : succ c op q ≠ .idle) :
    positionFits c op (succ c op q) = true := by
  cases q with
  | idle | clear => exact absurd rfl hs
  | rom i =>
    simp only [succ]
    split <;> simpa [positionFits] using h
  | pageSel p | colLow p | colHigh p => exact h
  | data p =>
    by_cases hp : p + 1 < pages c
    · simp_all [succ, positionFits]
    · exact absurd (succ_lastData (by omega)) hs
  | tog k =>
    by_cases hk : k = 0 ∧ op = 4
    · simp [succ, hk, positionFits]
    · exact absurd (if_neg hk) hs

/-- Only `Clear` leads into a show, and it makes no call. -/
theorem pageOf_of_succ (h : pageOf (succ c op q) ≠ none) : pageOf q ≠ none := by
  cases q with
  | idle | clear => exact h
  | rom i =>
    simp only [succ] at h
    split at h <;> exact h
  | pageSel p | colLow p | colHigh p | data p => simp [pageOf]
  | tog k =>
    simp only [succ] at h
    split at h <;> exact h

/-- An `init` that ends with a call ends its show (R175). -/
theorem data_of_initEnds (hq : q ≠ .clear) (h : positionFits c 0 q = true) (hs : succ c 0 q = .idle) :
    ∃ p, q = .data p := by
  cases q with
  | clear => exact absurd rfl hq
  | idle => simp [positionFits] at h
  | rom i => simp only [succ] at hs; split at hs <;> cases hs
  | pageSel p | colLow p | colHigh p => cases hs
  | data p => exact ⟨p, rfl⟩
  | tog k => simp [positionFits] at h

/-- The positions of a show are those of an `init` or a show, at a page that exists. -/
theorem positionFits_page {p : Nat} (h : positionFits c op q = true) (hp : pageOf q = some p) :
    (op = 0 ∨ op = 1) ∧ p < pages c := by
  cases q <;> simp_all [positionFits, pageOf]

/-- A toggle position of an operation has a byte (R185). -/
theorem togByte_of_positionFits {k : Fin 2} (arg : Byte) (h : positionFits c op (.tog k) = true) :
    ∃ b, togByte op arg k = some b := by
  simp only [positionFits, Bool.or_eq_true, Bool.and_eq_true, decide_eq_true_eq] at h
  rcases h with rfl | ⟨(rfl | rfl) | rfl, rfl⟩
  · fin_cases k <;> exact ⟨_, rfl⟩
  · exact ⟨_, rfl⟩
  · exact ⟨_, rfl⟩
  · exact ⟨_, rfl⟩

end

/-! ### What each update of the state keeps -/

theorem fbFull_zero (c : Cfg) (fb : Memory) : fbFull c (Memory.zero fb (fbSize c)) := fun a ha =>
  ⟨0x00, by rw [read_zero, if_pos ha]⟩

theorem fbFull_write {c : Cfg} {fb : Memory} (h : fbFull c fb) (a : Nat) (v : Byte) :
    fbFull c (Memory.write fb a v) := fun b hb => by
  rw [read_write]
  split
  · exact ⟨v, rfl⟩
  · exact h b hb

section
variable {s : State}

theorem Inv.setHost (h : Inv s) (held : List HostMove) : Inv { s with host := held } := { h with }

theorem Inv.setTin (h : Inv s) (rest : List Arrival) : Inv { s with tin := rest } := { h with }

theorem Inv.logCall (h : Inv s) (c : Call) (ok : Bool) : Inv (logCall c ok s) := { h with }

theorem Inv.answerTaken (h : Inv s) : Inv (answerTaken s) := by
  unfold Machine.answerTaken
  split <;> exact { h with }

theorem Inv.gram_ok (h : Inv s) : s.t.gram.wf ∧ ∀ x ∈ s.t.gram, x.1 < 8 * gramW := ⟨h.gram_wf, h.gram_inside⟩

theorem Inv.setTarget (h : Inv s) {t : Target} (hg : t.gram.wf ∧ ∀ x ∈ t.gram, x.1 < 8 * gramW) :
    Inv { s with t := t } :=
  { h with gram_wf := hg.1, gram_inside := hg.2 }

/-- Events that end with chip select high (R221, R224). -/
theorem Inv.emit (h : Inv s) (es : List WireEvent) (hcs : (es.foldl Lines.drive s.lines).cs = true) :
    Inv (emit es s) :=
  { h with
    lines_follow := by simp only [emit_fields, List.foldl_append, ← h.lines_follow]
    cs_high := hcs }

/-- Completion, the frame buffer being full where it ends an `init` (R123, R175). -/
theorem Inv.complete (h : Inv s) (hb : s.busy = true) (hfull : s.op = 0 → fbFull s.cfg s.fb) : Inv (complete s) := by
  have hlc : (Machine.complete s).lc = .active := by
    by_cases ho : s.op = 0
    · exact if_pos ho
    · exact (if_neg ho).trans (h.busy_active hb ho)
  exact { h with
    idle_iff := by simp
    position := by simp
    initializing_iff := by rw [hlc]; simp
    busy_active := by simp
    coloff := fun hp => absurd rfl hp
    full := fun _ => by
      by_cases ho : s.op = 0
      · exact hfull ho
      · exact h.full (.inl (h.busy_active hb ho))
    busy_ready := by simp }

/-- BusError (R250, R251). -/
theorem Inv.raiseBusError (h : Inv s) (hb : s.busy = true) (q : Seq) : Inv (raiseBusError q s) := by
  have hlc : (Machine.raiseBusError q s).lc = .uninitialized ∨
      (s.lc = .active ∧ (Machine.raiseBusError q s).lc = .active) := by
    by_cases ho : s.op = 0
    · exact .inl (if_pos ho)
    · exact .inr ⟨h.busy_active hb ho, (if_neg ho).trans (h.busy_active hb ho)⟩
  exact { h with
    idle_iff := by simp
    position := by simp
    initializing_iff := by rcases hlc with hlc | ⟨_, hlc⟩ <;> rw [hlc] <;> simp
    busy_active := by simp
    coloff := fun hp => absurd rfl hp
    full := fun hor => by
      rcases hor with hlc' | hp
      · rcases hlc with hlc | ⟨hact, _⟩
        · rw [hlc] at hlc'; cases hlc'
        · exact h.full (.inl hact)
      · exact absurd rfl hp
    busy_ready := by simp }

/-- A busy engine goes to another position of its operation. -/
theorem Inv.goTo (h : Inv s) (hb : s.busy = true) {q : Seq} (hfit : positionFits s.cfg s.op q = true)
    (hpage : pageOf q ≠ none → s.coloff = colOffset s.cfg ∧ fbFull s.cfg s.fb) : Inv { s with seq := q } :=
  { h with
    idle_iff := by simp [hb, positionFits_ne_idle hfit]
    position := fun _ => hfit
    coloff := fun hp => (hpage hp).1
    full := fun hor => hor.elim (fun hlc => h.full (.inl hlc)) fun hp => (hpage hp).2 }

/-- The advance after a call (R122). -/
theorem Inv.advance (h : Inv s) (hb : s.busy = true) (hq : s.seq ≠ .clear) : Inv (advance s) := by
  have hfit := h.position hb
  rw [advance_eq]
  split
  · rename_i hs
    refine h.complete hb fun ho => h.full (.inr ?_)
    rw [ho] at hfit hs
    obtain ⟨p, hp⟩ := data_of_initEnds hq hfit hs
    simp [hp, pageOf]
  · rename_i hs
    exact h.goTo hb (positionFits_succ hfit hs) fun hp =>
      ⟨h.coloff (pageOf_of_succ hp), h.full (.inr (pageOf_of_succ hp))⟩

/-- A call, whatever its answer. -/
theorem Inv.answered (h : Inv s) (hb : s.busy = true) (hq : s.seq ≠ .clear) (c : Call) (a : Answer) :
    Inv (answered c a s) := by
  have hsent : ∀ n (t : Target), (t.gram.wf ∧ ∀ x ∈ t.gram, x.1 < 8 * gramW) → ∀ ok,
      Inv (Machine.logCall c ok (Machine.emit (wireFrame s.cfg c n) { s with t := t })) := fun n t hg ok =>
    ((h.setTarget hg).emit _ (by
      rw [wireFrame_lines]
      unfold linesAfter
      split
      · exact h.cs_high
      · rfl)).logCall c ok
  cases a with
  | wait => exact h
  | ok =>
    have hok : Inv (transferOk c s) := by
      rw [transferOk, hear_wireFrame]
      exact hsent _ _ (recvCall_gram_ok c h.gram_ok) true
    exact hok.advance (by simpa using hb) (by simpa using hq)
  | fail sent received =>
    have hfail : Inv (transferFail c sent received s) := hsent _ _ (recvPart_gram_ok c received h.gram_ok) false
    exact hfail.raiseBusError (by simpa using hb) s.seq

/-- `Clear` (R174), a position of `init` alone. -/
theorem Inv.clearFb (h : Inv s) (hb : s.busy = true) (hq : s.seq = .clear) : Inv (clearFb s) := by
  have ho : s.op = 0 := by simpa [hq, positionFits] using h.position hb
  have hzero : Inv { s with fb := Memory.zero s.fb (fbSize s.cfg), coloff := colOffset s.cfg } :=
    { h with
      fb_wf := zero_wf h.fb_wf _
      fb_inside := zero_inside (Nat.le_refl _) h.fb_inside
      coloff := fun _ => rfl
      full := fun _ => fbFull_zero s.cfg s.fb }
  rcases clearFb_cases s with ⟨hp, heq⟩ | ⟨_, heq⟩ <;> rw [heq]
  · exact hzero.goTo hb (by simp [positionFits, ho, hp]) fun _ => ⟨rfl, fbFull_zero s.cfg s.fb⟩
  · exact hzero.complete hb fun _ => fbFull_zero s.cfg s.fb

/-- A show accepted with no page to send leaves the engine at rest (R196). -/
theorem showEntry_latch_none {arg : Byte} (hb : s.busy = false) (hq : s.seq = .idle) (hp : pages s.cfg = 0) :
    showEntry (latch 1 arg s) = { s with
      op := 1, arg := arg, coloff := colOffset s.cfg, status := .ok, errSeq := Config.freeErrSeq s.ended,
      ended := s.ended + 1 } := by
  have heq : showEntry (latch 1 arg s) = _ := showEntry_none hp
  rw [heq, hb, hq]
  rfl

/-- While the engine is at rest, what only a running operation reads may be anything. -/
theorem Inv.atRest (h : Inv s) (hb : s.busy = false) (op : BitVec 3) (arg : Byte) (coloff : BitVec 7)
    (status : Status) (errSeq : Seq) (ended : Nat) :
    Inv { s with op := op, arg := arg, coloff := coloff, status := status, errSeq := errSeq, ended := ended } :=
  { h with
    position := fun hb' => by simp [hb] at hb'
    initializing_iff := by simpa [hb] using h.initializing_iff
    busy_active := fun hb' => by simp [hb] at hb'
    coloff := fun hp => by simp [h.idle_iff.mpr hb, pageOf] at hp }

/-- An operation other than `init` starts in `Active` at one of its positions (R121). -/
theorem Inv.started (h : Inv s) (hr : s.tr = .ready) (ha : s.lc = .active) {op : BitVec 3} (ho : op ≠ 0)
    (arg : Byte) {coloff : BitVec 7} {q : Seq} (hfit : positionFits s.cfg op q = true)
    (hc : pageOf q ≠ none → coloff = colOffset s.cfg) :
    Inv { s with busy := true, op := op, arg := arg, coloff := coloff, seq := q } :=
  { h with
    idle_iff := by simp [positionFits_ne_idle hfit]
    position := fun _ => hfit
    initializing_iff := by rw [ha]; exact ⟨nofun, fun hi => absurd hi.2 ho⟩
    busy_active := fun _ _ => ha
    coloff := hc
    full := fun _ => h.full (.inl ha)
    busy_ready := fun _ => hr }

/-- `init` starts in every lifecycle state, and warns of a height that is no multiple of 8 (R170, R30). -/
theorem Inv.initEntry (h : Inv s) (hr : s.tr = .ready) (arg : Byte) : Inv (initEntry (latch 0 arg s)) :=
  { h with
    idle_iff := by simp
    position := by simp [positionFits]
    initializing_iff := by simp
    busy_active := by simp
    coloff := fun hp => absurd rfl hp
    full := fun hor => by simp [pageOf] at hor
    busy_ready := fun _ => by simpa using hr
    warn := fun hw => by
      have hwarn : s.cfgWarn = true ∨ s.cfg.height % 8 ≠ 0 := by simpa [warnAfter] using hw
      exact hwarn.elim h.warn id }

/-- What the dispatch of a request makes of a state at rest (R121). -/
theorem Inv.dispatched {s' : State} (h : Inv s) (hb : s.busy = false) (hr : s.tr = .ready) (hd : Dispatched s s') :
    Inv s' := by
  cases hd with
  | init arg => exact h.initEntry hr arg
  | rejected => exact h.atRest hb s.op s.arg s.coloff _ _ _
  | toggle op arg ha ho =>
    have hfit : op ≠ 0 ∧ positionFits s.cfg op (.tog 0) = true := by
      rcases ho with rfl | rfl | rfl | rfl <;> exact ⟨by decide, rfl⟩
    exact h.started hr ha hfit.1 arg hfit.2 fun hp => absurd rfl hp
  | show' arg ha =>
    rcases showEntry_cases (latch 1 arg s) with ⟨hp, heq⟩ | ⟨hp, _⟩
    · rw [heq]
      exact h.started (op := 1) hr ha (by decide) arg (by simpa [positionFits] using hp) fun _ => rfl
    · rw [showEntry_latch_none hb (h.idle_iff.mpr hb) hp]
      exact h.atRest hb ..

/-- A phase of the reset pulse, which runs on SPI while the engine is at rest (R225). -/
theorem Inv.pulse (h : Inv s) (hb : s.busy = false) (ht : s.cfg.transport = .spi) : Inv (pulse s) := by
  have hphase : ∀ es tr, (es.foldl Lines.drive s.lines).cs = true → Inv { Machine.emit es s with tr := tr } :=
    fun es tr hcs =>
      { h.emit es hcs with
        i2c_ready := fun hi => by simp [ht] at hi
        busy_ready := fun hb' => by simp [hb] at hb' }
  unfold Machine.pulse
  split
  · exact hphase _ _ h.cs_high
  · exact hphase _ _ h.cs_high
  · exact hphase _ _ h.cs_high
  · exact hphase _ _ h.cs_high
  · exact h

/-- A write by the host (R126). -/
theorem Inv.fbWrite (h : Inv s) {a : Nat} (ha : a < fbSize s.cfg) (v : Byte) :
    Inv { s with fb := Memory.write s.fb a v } :=
  { h with
    fb_wf := write_wf h.fb_wf a v
    fb_inside := write_inside v ha h.fb_inside
    full := fun hor => fbFull_write (h.full hor) a v }

end

/-! ### Every step -/

theorem callAt_clear {s : State} {c : Call} (hc : callAt s = .ok c) : s.seq ≠ .clear := by
  intro hq; simp [callAt, hq] at hc

theorem Inv.stepped {s s' : State} (h : Inv s) (hs : Stepped s s') : Inv s' := by
  cases hs with
  | pulse ht hr held hh =>
    have hb : s.busy = false := by
      cases hb : s.busy
      · rfl
      · exact absurd (h.busy_ready hb) hr
    exact (h.setHost held).pulse hb ht
  | clear hb hq => exact h.clearFb hb hq
  | call hb c hc => exact h.answerTaken.answered (by simpa using hb) (by simpa using callAt_clear hc) c _
  | arrival hb x rest hx t hf hg held hh => exact ((h.setHost held).setTin rest).setTarget (hg h.gram_ok)
  | request hb w rest hh hr _ hd => exact (h.setHost rest).dispatched hb hr hd
  | write hb a v rest hh ha => exact (h.setHost rest).fbWrite ha v
  | idle hb hi held hh => exact h.setHost held

theorem Inv.of_step {s s' : State} (h : Inv s) (hs : step s = .next s') : Inv s' := h.stepped (step_cases hs).2

/-- Settles O46: whichever agent the step moves (`Stepped`), what it does keeps the invariant. -/
theorem stepKeepsTheInvariant : Obligations.StepKeepsTheInvariant := by
  unfold Obligations.StepKeepsTheInvariant
  exact fun s s' h hs => h.of_step hs

end Sys2Proof.Machine
end

section
/-! What the invariant gives (10_state.md, 60_exceptions.md): it holds at reset, the lifecycle moves as R262 says, no
step stops but on foreign input, and every answered step brings an operation nearer its end (R128). -/

namespace Sys2Proof.Machine

/-! ### Reset -/

theorem inv_resetOf {c : Cfg} (h : c.legal = true) : Inv (State.resetOf c) where
  cfg_legal := h
  fb_wf := (reset_memories_wf c).1
  fb_inside := nofun
  gram_wf := (reset_memories_wf c).2
  gram_inside := nofun
  idle_iff := by simp [State.resetOf]
  position := nofun
  initializing_iff := by simp [State.resetOf]
  busy_active := nofun
  coloff := fun hp => absurd rfl hp
  full := fun hor => hor.elim nofun fun hp => absurd rfl hp
  i2c_ready := fun hi => by
    have ht : c.transport = .i2c := hi
    simp [State.resetOf, ht]
  busy_ready := nofun
  warn := nofun
  lines_follow := rfl
  cs_high := rfl

/-- Settles O8: every clause speaks of a running engine, of `Active` or of what reset leaves empty. -/
theorem resetMeetsTheInvariants : Obligations.ResetMeetsTheInvariants := by
  unfold Obligations.ResetMeetsTheInvariants
  exact fun c h => ⟨inv_resetOf h, inv_resetOf h, fun _ => trivial, fun _ => nofun⟩

/-- Settles O7: the table's values are those `State.resetOf` writes; the adapter phase depends on the transport. -/
theorem resetLeavesTheTable : Obligations.ResetLeavesTheTable := by
  unfold Obligations.ResetLeavesTheTable
  intro c
  have hready : c.transport = .i2c → (State.resetOf c).tr = .ready := fun h => by simp [State.resetOf, h]
  have hunreset : c.transport = .spi → (State.resetOf c).tr = .unreset := fun h => by simp [State.resetOf, h]
  exact ⟨rfl, rfl, rfl, rfl, rfl, read_nil, hready, hunreset, rfl, rfl, rfl, rfl, read_nil, rfl, rfl, rfl, rfl,
    rfl, rfl, rfl, rfl, rfl, rfl, rfl, rfl, rfl, rfl, rfl, rfl, rfl, rfl, rfl, rfl, rfl⟩

/-! ### The lifecycle -/

section
variable {s : State}

/-- `Clear` is a position of `init` alone. -/
theorem Inv.op_of_clear (h : Inv s) (hb : s.busy = true) (hq : s.seq = .clear) : s.op = 0 := by
  simpa [hq, positionFits] using h.position hb

/-- A call changes the lifecycle by completing `init` or by aborting it (R123, R250). -/
theorem answered_lc_cases (c : Call) (a : Answer) (s : State) :
    (answered c a s).lc = s.lc ∨
    (s.op = 0 ∧ (answered c a s).lc = .active ∧ (answered c a s).busy = false ∧ (answered c a s).status = .ok) ∨
    (s.op = 0 ∧ (answered c a s).lc = .uninitialized ∧ (answered c a s).busy = false ∧
      (answered c a s).status = .busError ∧ (answered c a s).errSeq = s.seq) := by
  by_cases ho : s.op = 0
  · cases a with
    | wait => exact .inl rfl
    | ok =>
      by_cases hs : succ s.cfg s.op s.seq = .idle
      · obtain ⟨hbusy, hstatus⟩ := answered_ok_ends c hs
        refine .inr (.inl ⟨ho, ?_, hbusy, hstatus⟩)
        rw [answered_ok_last c hs]
        simp [ho]
      · exact .inl (by simp [answered_ok_next c hs])
    | fail => exact .inr (.inr ⟨ho, by simp [answered, ho], rfl, rfl, rfl⟩)
  · cases a with
    | wait => exact .inl rfl
    | ok => exact .inl (answered_ok_lc c ho)
    | fail => exact .inl (if_neg ho)

/-- The dispatch of a request changes the lifecycle by accepting `init` (R121). -/
theorem Dispatched.lc_cases {s' : State} (hd : Dispatched s s') :
    s'.lc = s.lc ∨ (s'.lc = .initializing ∧ s'.busy = true ∧ s'.op = 0 ∧ s'.seq = .rom 0) := by
  cases hd with
  | init arg => exact .inr ⟨rfl, rfl, rfl, rfl⟩
  | toggle | rejected => exact .inl rfl
  | show' arg ha =>
    rcases showEntry_cases (latch 1 arg s) with ⟨_, heq⟩ | ⟨_, heq⟩ <;> rw [heq]
    · exact .inl rfl
    · exact .inl (by simp)

end

/-- Settles O41: the lifecycle is written by the acceptance of `init`, by the completion of a busy `init` in `Clear`
or at a call, and by a BusError (`answered_lc_cases`, `Dispatched.lc_cases`). -/
theorem lifecycleMoves : Obligations.LifecycleMoves := by
  unfold Obligations.LifecycleMoves
  intro s s' h hstep hlc
  cases (step_cases hstep).2 with
  | pulse => exact absurd (by simp) hlc
  | arrival | write | idle => exact absurd rfl hlc
  | clear hb hq =>
    have ho := h.op_of_clear hb hq
    rcases clearFb_cases s with ⟨_, heq⟩ | ⟨_, heq⟩
    · exact absurd (by rw [heq]) hlc
    · refine .inr (.inl ⟨h.initializing_iff.mpr ⟨hb, ho⟩, ?_, ?_, ?_⟩) <;> rw [heq]
      · exact if_pos ho
      · rfl
      · rfl
  | call hb c hc =>
    have hinit : (answerTaken s).op = 0 → s.lc = .initializing := fun ho =>
      h.initializing_iff.mpr ⟨hb, by simpa using ho⟩
    rcases answered_lc_cases c (nextAnswer s) (answerTaken s) with hkeep | ⟨ho, hend⟩ | ⟨ho, hlc', hb', hst, herr⟩
    · exact absurd (by simpa using hkeep) hlc
    · exact .inr (.inl ⟨hinit ho, hend⟩)
    · exact .inr (.inr ⟨hinit ho, hlc', hb', hst, by simpa using herr⟩)
  | request hb w rest hh hr _ hd =>
    rcases hd.lc_cases with hkeep | ⟨hlc', hb', ho', hq'⟩
    · exact absurd hkeep hlc
    · exact .inl ⟨hlc', hb, hb', ho', hq'⟩

/-! ### Stops -/

section
variable {s : State}

/-- Every position of a busy engine but `Clear` has its call: `Data` reads a full frame buffer (R32, R201), and a
toggle has a byte there (R185). -/
theorem Inv.callAt_ok (h : Inv s) (hb : s.busy = true) (hq : s.seq ≠ .clear) : ∃ c, callAt s = .ok c := by
  have hfit := h.position hb
  cases hs : s.seq with
  | idle => rw [hs] at hfit; cases hfit
  | clear => exact absurd hs hq
  | rom i => exact ⟨_, callAt_rom hs⟩
  | pageSel p => exact ⟨_, callAt_pageSel hs⟩
  | colLow p => exact ⟨_, callAt_colLow hs⟩
  | colHigh p => exact ⟨_, callAt_colHigh hs⟩
  | data p =>
    have hp : p < pages s.cfg := (positionFits_page hfit (by rw [hs]; rfl)).2
    exact ⟨_, callAt_data hs hp (h.full (.inr (by simp [hs, pageOf])))⟩
  | tog k =>
    rw [hs] at hfit
    obtain ⟨b, hb⟩ := togByte_of_positionFits s.arg hfit
    exact ⟨_, callAt_tog hs hb⟩

/-- A busy engine always has a next state. -/
theorem Inv.engineStep_next (h : Inv s) (hb : s.busy = true) : ∃ s', engineStep s = .next s' := by
  by_cases hq : s.seq = .clear
  · exact ⟨_, engineStep_clear hq⟩
  · obtain ⟨c, hc⟩ := h.callAt_ok hb hq
    exact ⟨_, engineStep_call hc⟩

theorem Inv.mayCall (h : Inv s) (hb : s.busy = true) : mayCall s := ⟨h.cfg_legal, hb, h.busy_ready hb⟩

theorem Inv.step_busy (h : Inv s) (hb : s.busy = true) : step s = engineStep s :=
  Machine.step_busy h.cfg_legal hb (h.busy_ready hb)

/-- The others stop only on an I2C payload of no known form (R217). -/
theorem others_stops (s : State) :
    (∀ f, others s ≠ .fault f) ∧
    (∀ r, others s = .refused r → ∃ bs rest, s.tin = .payload bs :: rest ∧ r = .unknownFrame bs) := by
  unfold others
  split
  · exact ⟨nofun, nofun⟩
  · split
    · rename_i x rest hx
      rcases arrive_cases x { s with tin := rest } with ⟨t, ha, _, _⟩ | ⟨bs, rfl, ha⟩
      · rw [ha]; exact ⟨nofun, nofun⟩
      · rw [ha]
        refine ⟨nofun, fun r hr => ?_⟩
        cases hr
        exact ⟨bs, rest, hx, rfl⟩
    · exact ⟨nofun, nofun⟩

/-- A host at rest stops only on its own write outside FB, and the others on an unknown payload. -/
theorem hostStep_stops (hl : s.cfg.legal = true) :
    (∀ f, hostStep s = .fault f → ∃ a v rest, s.host = .fbWrite a v :: rest ∧ fbSize s.cfg ≤ a ∧ f = .fbOutOfRange a) ∧
    (∀ r, hostStep s = .refused r → ∃ bs rest, s.tin = .payload bs :: rest ∧ r = .unknownFrame bs) := by
  unfold hostStep
  split
  · exact ⟨fun f hf => absurd hf ((others_stops s).1 f), (others_stops s).2⟩
  · rename_i rest _
    exact ⟨fun f hf => absurd hf ((others_stops { s with host := rest }).1 f), (others_stops { s with host := rest }).2⟩
  · rename_i w rest _
    split
    · obtain ⟨hfault, hrefused⟩ := exec_decodeHost_stops w { s with host := rest }
      refine ⟨fun f hf => absurd hf (hfault f), fun r hr => ?_⟩
      have hbad : s.cfg.legal = false := (hrefused r hr).1
      rw [hl] at hbad
      cases hbad
    · exact ⟨fun f hf => absurd hf ((others_stops s).1 f), (others_stops s).2⟩
  · rename_i a v rest hh
    unfold hostWrite
    split
    · exact ⟨nofun, nofun⟩
    · rename_i ha
      refine ⟨fun f hf => ?_, nofun⟩
      cases hf
      exact ⟨a, v, rest, hh, Nat.not_lt.mp ha, rfl⟩

end

/-- Settles O47: a busy engine has a next state (`Inv.engineStep_next`), and at rest the stops are those of
`hostStep_stops`. -/
theorem stepsStopOnlyOnForeignInput : Obligations.StepsStopOnlyOnForeignInput := by
  unfold Obligations.StepsStopOnlyOnForeignInput
  intro s h
  cases hb : s.busy with
  | true =>
    obtain ⟨s', hs'⟩ := h.engineStep_next hb
    rw [h.step_busy hb, hs']
    exact ⟨nofun, nofun⟩
  | false =>
    have hstep : step s = hostStep s := by simp [step, h.cfg_legal, hb]
    rw [hstep]
    exact hostStep_stops h.cfg_legal

/-! ### The steps left -/

section
variable {c : Cfg} {op : BitVec 3} {q : Seq}

/-- An operation has at least one step left and no more than an `init` at its start (R128). -/
theorem stepsLeft_bounds (h : positionFits c op q = true) :
    0 < stepsLeft c op q ∧ stepsLeft c op q ≤ 26 + 4 * pages c := by
  cases q with
  | idle => simp [positionFits] at h
  | rom i => simp only [stepsLeft]; omega
  | clear => simp only [stepsLeft]; omega
  | pageSel p | colLow p | colHigh p | data p =>
    have hp := (positionFits_page h rfl).2
    simp only [stepsLeft]
    omega
  | tog k => simp only [stepsLeft]; split <;> omega

/-- The successor of a position has one step fewer left (R128). -/
theorem stepsLeft_succ (h : positionFits c op q = true) (hs : succ c op q ≠ .idle) :
    stepsLeft c op (succ c op q) + 1 = stepsLeft c op q := by
  cases q with
  | idle | clear => exact absurd rfl hs
  | rom i =>
    by_cases hi : i.val + 1 < 25
    · rw [succ_rom hi]; simp only [stepsLeft]; omega
    · obtain rfl : i = 24 := by omega
      simp only [succ_lastRom, stepsLeft]
      omega
  | pageSel p | colLow p | colHigh p =>
    have hp := (positionFits_page h rfl).2
    simp only [succ, stepsLeft]
    omega
  | data p =>
    by_cases hp : p + 1 < pages c
    · rw [succ_data hp]; simp only [stepsLeft]; omega
    · exact absurd (succ_lastData (by omega)) hs
  | tog k =>
    by_cases hk : k = 0 ∧ op = 4
    · obtain ⟨rfl, rfl⟩ := hk
      rfl
    · exact absurd (if_neg hk) hs

end

/-- A call that is answered ends the operation or leaves the engine at the successor. -/
theorem answered_busy_seq (c : Call) {a : Answer} (ha : a ≠ .wait) {s : State}
    (hb : (answered c a s).busy = true) :
    succ s.cfg s.op s.seq ≠ .idle ∧ (answered c a s).seq = succ s.cfg s.op s.seq := by
  cases a with
  | wait => exact absurd rfl ha
  | fail => cases hb
  | ok =>
    refine ⟨fun hs => ?_, answered_ok_seq c s⟩
    rw [(answered_ok_ends c hs).1] at hb
    cases hb

/-- Settles O48: the bounds of `stepsLeft_bounds`; `Clear` goes to the first page, and an answered call to the
successor, which has one step fewer left (`stepsLeft_succ`). -/
theorem answeredStepsEndTheOperation : Obligations.AnsweredStepsEndTheOperation := by
  unfold Obligations.AnsweredStepsEndTheOperation
  intro s h hb ha
  have hfit := h.position hb
  obtain ⟨hpos, hbound⟩ := stepsLeft_bounds hfit
  refine ⟨hpos, hbound, ?_⟩
  rw [h.step_busy hb]
  by_cases hq : s.seq = .clear
  · refine ⟨_, engineStep_clear hq, fun hb' => ?_⟩
    rcases clearFb_cases s with ⟨_, heq⟩ | ⟨_, heq⟩
    · rw [heq, hq]; simp only [stepsLeft]; omega
    · rw [heq] at hb'; cases hb'
  · obtain ⟨c, hc⟩ := h.callAt_ok hb hq
    refine ⟨_, engineStep_call hc, fun hb' => ?_⟩
    obtain ⟨hs, hq'⟩ := answered_busy_seq c ha hb'
    simp only [answerTaken_fields] at hs hq'
    rw [hq']
    simpa using stepsLeft_succ hfit hs

end Sys2Proof.Machine
end

section
/-! The discipline of the wire is kept (45_transport_adapters.md R216, R224; 70_reset_and_hazards.md R286). -/

namespace Sys2Proof.Machine

/-- A call's frame is disciplined from any lines: on SPI by its own lines, on I2C since it carries at least one byte
after the control byte (R98, R100). -/
theorem wireOk_wireFrame (c : Cfg) {call : Call} (hlen : 1 ≤ call.bytes.length) (sent : Nat) (l : Lines) :
    wireOk c.i2cAddr l (wireFrame c call sent) = true := by
  cases ht : c.transport with
  | spi => rw [wireFrame_spi ht]; exact wireOk_spiFrame ..
  | i2c =>
    rw [wireFrame_i2c ht]
    cases call with
    | wc b => simp [wireOk, eventOk, i2cPayload]
    | wd bs => simpa [wireOk, eventOk, i2cPayload, Call.bytes] using hlen

/-- Every call of a legal configuration carries a byte. -/
theorem callAt_bytes {s : State} {c : Call} (hl : s.cfg.legal = true) (hc : callAt s = .ok c) :
    1 ≤ c.bytes.length := by
  cases c with
  | wc b => exact Nat.le_refl 1
  | wd bs =>
    obtain ⟨⟨hwidth, -⟩, -⟩ := (legal_iff s.cfg).mp hl
    rwa [← callAt_wd hc] at hwidth

/-- A call leaves both traces as they were, or enters itself in one and its frame, whole or broken off, in the other. -/
theorem answered_traces (c : Call) (a : Answer) (s : State) :
    ((answered c a s).calls = s.calls ∧ (answered c a s).wire = s.wire) ∨
    ∃ ok sent, (answered c a s).calls = s.calls ++ [{ call := c, ok := ok }] ∧
      (answered c a s).wire = s.wire ++ wireFrame s.cfg c sent := by
  cases a with
  | wait => exact .inl ⟨rfl, rfl⟩
  | ok => exact .inr ⟨true, c.bytes.length, by simp [answered, transferOk_eq]⟩
  | fail sent received => exact .inr ⟨false, sent, by simp [answered, transferFail_eq]⟩

/-- A phase of the pulse adds events that send no byte and are disciplined from any lines, and the last of them has
run before the adapter is ready (R225). -/
theorem pulse_wire (s : State) :
    ∃ es, (pulse s).wire = s.wire ++ es ∧ (∀ e ∈ es, isTx e = false) ∧ ∀ addr l, wireOk addr l es = true := by
  unfold pulse
  split
  case h_5 => exact ⟨[], by simp, by simp, fun _ _ => rfl⟩
  all_goals exact ⟨_, rfl, by simp [isTx], fun _ _ => rfl⟩

/-- The wire of a state and what is emitted after it. -/
theorem Inv.wireOk_append {s : State} (h : Inv s) (es : List WireEvent) :
    wireOk s.cfg.i2cAddr Lines.reset (s.wire ++ es) =
      (wireOk s.cfg.i2cAddr Lines.reset s.wire && wireOk s.cfg.i2cAddr s.lines es) := by
  rw [Machine.wireOk_append, ← h.lines_follow]

/-- Settles O50: the wire gains nothing, a phase of the pulse (`pulse_wire`), or the frame of a call
(`wireOk_wireFrame`), which is made only once the adapter is ready. -/
theorem stepKeepsTheWireDiscipline : Obligations.StepKeepsTheWireDiscipline := by
  unfold Obligations.StepKeepsTheWireDiscipline
  intro s s' h hw htx hstep
  cases (step_cases hstep).2 with
  | pulse ht hr held hh =>
    obtain ⟨es, hes, hnone, hdisc⟩ := pulse_wire { s with host := held }
    have hcfg : (pulse { s with host := held }).cfg = s.cfg := by simp
    rw [hcfg, hes]
    refine ⟨by rw [h.wireOk_append, hw, hdisc]; rfl, fun _ e he => ?_⟩
    exact (List.mem_append.mp he).elim (htx hr e) (hnone e)
  | clear hb hq => simpa using ⟨hw, htx⟩
  | call hb c hc =>
    have hready : (answered c (nextAnswer s) (answerTaken s)).tr = .ready := by simpa using h.busy_ready hb
    refine ⟨?_, fun hr => absurd hready hr⟩
    rcases answered_traces c (nextAnswer s) (answerTaken s) with ⟨_, heq⟩ | ⟨_, sent, _, heq⟩
    · simpa [heq] using hw
    · simpa [heq, h.wireOk_append, hw] using wireOk_wireFrame s.cfg (callAt_bytes h.cfg_legal hc) sent s.lines
  | arrival | write | idle => exact ⟨hw, htx⟩
  | request hb w rest hh hr _ hd =>
    have hkeep : s'.cfg = s.cfg ∧ s'.wire = s.wire ∧ s'.tr = s.tr := by cases hd <;> simp
    obtain ⟨hcfg, hwire, htr⟩ := hkeep
    rw [hcfg, hwire, htr]
    exact ⟨hw, htx⟩

end Sys2Proof.Machine
end

section
/-! The shadow under the engine's bytes (41_command_set.md, 44_show_frame_sequencer.md): what the address bytes and a
run of data bytes leave, and the pending parameter and the fault after a command byte. -/

namespace Sys2Proof.Machine

/-! ### Command bytes -/

/-- A command faults the shadow only by a byte outside the map at a shadow that awaits nothing (R139). -/
theorem recvCmd_faults {b : Byte} {t : Target} (hf : t.fault = false) (h : (recvCmd b t).fault = true) :
    t.pending = none ∧ classify b = .unmapped := by
  rcases recvCmd_cases b t with ⟨hf', _⟩ | ⟨_, m, _, heq⟩ | ⟨_, _, i, hi, heq⟩ | ⟨_, _, m, _, heq⟩ | ⟨_, hp, hu, _⟩
  · rw [hf] at hf'; cases hf'
  · simp [heq, hf] at h
  · obtain ⟨-, -, hkeep, -⟩ := shadowExec_keeps (classify_one hi) t
    simp [heq, hkeep, hf] at h
  · rw [heq] at h; exact absurd h (by simp [hf])
  · exact ⟨hp, hu⟩

/-- A byte that is a whole command leaves nothing pending: it is executed, or taken as the parameter awaited. -/
theorem recvCmd_one_pending {b : Byte} {i : Instr} (hi : classify b = .one i) {t : Target} (hf : t.fault = false) :
    (recvCmd b t).pending = none := by
  cases hp : t.pending with
  | some m => rw [recvCmd_param b hf hp]; simp
  | none =>
    obtain ⟨-, hkeep, -⟩ := shadowExec_keeps (classify_one hi) t
    rw [recvCmd_one hi hf hp, hkeep, hp]

/-- Settles O21, by what `recvCmd` does with each kind of byte (`recvCmd_param`, `recvCmd_one`, `recvCmd_two`). -/
theorem commandStreamDecode : Obligations.CommandStreamDecode := by
  unfold Obligations.CommandStreamDecode
  intro s b hf
  refine ⟨fun m hp => ?_, fun hp i hi => ?_, fun hp m hm => ?_, fun hp hout => ?_⟩
  · rw [exec_withParam, recvCmd_param b hf hp, unlessFault, if_neg (by simp [hf])]
  · rw [exec_command i (classify_one hi), recvCmd_one hi hf hp]
  · exact recvCmd_two (by rw [hm, classify_commandByte]) hf hp
  · simp [recvCmd, fetch, hf, hp, (classify_unmapped_iff b).mpr hout]

/-! ### The mapper -/

section
variable {c : Cfg}

/-- A legal configuration has at most the eight pages of GRAM (R7). -/
theorem pages_le (hl : c.legal = true) : pages c ≤ 8 := by
  obtain ⟨-, ⟨-, hheight⟩, -⟩ := (legal_iff c).mp hl
  simp only [pages]
  omega

/-- The last column of the window is one of GRAM (R65). -/
theorem colOffset_add_width (hl : c.legal = true) : (132 - c.width) / 2 + c.width ≤ 132 := by
  obtain ⟨hwidth, -⟩ := (legal_iff c).mp hl
  omega

end

/-- Settles O37: the offset and the last column are arithmetic in the width (`colOffset_toNat`); a page below PAGES is
below 8 (`pages_le`). -/
theorem windowLiesInsideTheGram : Obligations.WindowLiesInsideTheGram := by
  unfold Obligations.WindowLiesInsideTheGram
  intro c hl
  obtain ⟨hwidth, -, -⟩ := (legal_iff c).mp hl
  have hpages := pages_le hl
  rw [colOffset_toNat]
  refine ⟨rfl, by omega, by omega, by omega, fun p x hp hx => ⟨fbIndex_lt hp hx, ?_⟩⟩
  simp only [gramKey, gramW]
  omega

theorem classify_pageByte {p : Nat} (h : p < 8) : classify (pageByte p) = .one (.cPage (BitVec.ofNat 3 p)) := by
  have key : ∀ p : Fin 8, classify (pageByte p) = .one (.cPage (BitVec.ofNat 3 p)) := by decide
  exact key ⟨p, h⟩

theorem classify_colLowByte (coloff : BitVec 7) :
    classify (colLowByte coloff) = .one (.cColLow (coloff.extractLsb' 0 4)) := by
  revert coloff; decide

theorem classify_colHighByte (coloff : BitVec 7) :
    classify (colHighByte coloff) = .one (.cColHigh ((coloff.zeroExtend 8).extractLsb' 4 4)) := by
  revert coloff; decide

/-- The two nibbles of `COLOFF`, as numbers and as the halves of a column. -/
theorem coloff_nibbles (coloff : BitVec 7) :
    coloff.extractLsb' 0 4 = BitVec.ofNat 4 coloff.toNat ∧
    (coloff.zeroExtend 8).extractLsb' 4 4 = BitVec.ofNat 4 (coloff.toNat / 16) ∧
    (coloff.zeroExtend 8).extractLsb' 4 4 ++ coloff.extractLsb' 0 4 = BitVec.ofNat 8 coloff.toNat := by
  revert coloff; decide

section
variable {t : Target} (hf : t.fault = false) (hp : t.pending = none)
include hf hp

/-- The three address bytes, each at a shadow in step. -/
theorem recvCmd_pageByte {p : Nat} (h : p < 8) :
    recvCmd (pageByte p) t = { t with page := Reg.of (BitVec.ofNat 3 p) } := by
  rw [recvCmd_one (classify_pageByte h) hf hp]
  simp [shadowExec, unlessFault, hf, setPage]

theorem recvCmd_colLowByte (coloff : BitVec 7) :
    recvCmd (colLowByte coloff) t = { t with colLo := Reg.of (coloff.extractLsb' 0 4) } := by
  rw [recvCmd_one (classify_colLowByte coloff) hf hp]
  simp [shadowExec, unlessFault, hf, setColLow]

theorem recvCmd_colHighByte (coloff : BitVec 7) :
    recvCmd (colHighByte coloff) t = { t with colHi := Reg.of ((coloff.zeroExtend 8).extractLsb' 4 4) } := by
  rw [recvCmd_one (classify_colHighByte coloff) hf hp]
  simp [shadowExec, unlessFault, hf, setColHigh]

end

/-- Settles O38: the three bytes one after the other, each leaving the shadow in step for the next. -/
theorem addressBytesSetThePointers : Obligations.AddressBytesSetThePointers := by
  unfold Obligations.AddressBytesSetThePointers
  intro c p t hl hp hf hpend
  obtain ⟨hlow, hhigh, -⟩ := coloff_nibbles (colOffset c)
  rw [recvCmd_pageByte hf hpend (by have := pages_le hl; omega), recvCmd_colLowByte (by exact hf) (by exact hpend),
    recvCmd_colHighByte (by exact hf) (by exact hpend), hlow, hhigh, colOffset_toNat]

/-! ### Data bytes -/

/-- GRAM after bytes were stored at rising keys from `a` on. -/
def storeRow (g : Memory) (a : Nat) : List Byte → Memory
  | [] => g
  | v :: vs => storeRow (Memory.write g a v) (a + 1) vs

theorem read_storeRow (g : Memory) (a : Nat) (vs : List Byte) (k : Nat) :
    Memory.read (storeRow g a vs) k =
      if a ≤ k ∧ k < a + vs.length then vs[k - a]? else Memory.read g k := by
  induction vs generalizing g a with
  | nil => simp [storeRow, show ¬ (a ≤ k ∧ k < a) by omega]
  | cons v vs ih =>
    rw [storeRow, ih, read_write]
    by_cases hk : k = a
    · simp [hk]
    · by_cases ha : a ≤ k
      · simp only [hk, if_false, List.length_cons, show k - a = (k - (a + 1)) + 1 by omega,
          List.getElem?_cons_succ, show a + 1 ≤ k by omega, ha, true_and,
          show a + (vs.length + 1) = a + 1 + vs.length by omega]
      · simp [hk, ha, show ¬ a + 1 ≤ k by omega]

/-- A cell outside the stored run is as it was. -/
theorem read_storeRow_other {g : Memory} {a : Nat} {vs : List Byte} {k : Nat} (h : ∀ x, x < vs.length → k ≠ a + x) :
    Memory.read (storeRow g a vs) k = Memory.read g k := by
  rw [read_storeRow, if_neg]
  rintro ⟨hle, hlt⟩
  exact h (k - a) (by omega) (by omega)

/-- A cell of the stored run holds its byte. -/
theorem read_storeRow_at {g : Memory} {a x : Nat} {vs : List Byte} (h : x < vs.length) :
    Memory.read (storeRow g a vs) (a + x) = vs[x]? := by
  rw [read_storeRow, if_pos (by omega), Nat.add_sub_cancel_left]

section
variable {t : Target}

@[simp] theorem colValue_setCol (c : Byte) (t : Target) : colValue (setCol c t) = some c := by
  have hc : c.extractLsb' 4 4 ++ c.extractLsb' 0 4 = c := by revert c; decide
  simpa [colValue, setCol, Reg.of] using hc

theorem setCol_of_colValue {c : Byte} (h : colValue t = some c) : setCol c t = t := by
  obtain ⟨⟨hhi, hlo⟩, rfl⟩ : (t.colHi.has = true ∧ t.colLo.has = true) ∧ t.colHi.val ++ t.colLo.val = c := by
    simpa [colValue] using h
  have hreg : ∀ {w} {r : Reg w}, r.has = true → Reg.of r.val = r := fun {_ r} hr => by
    cases r; cases hr; rfl
  have hsplit : (t.colHi.val ++ t.colLo.val).extractLsb' 4 4 = t.colHi.val ∧
      (t.colHi.val ++ t.colLo.val).extractLsb' 0 4 = t.colLo.val :=
    ⟨BitVec.extractLsb'_append_eq_left, BitVec.extractLsb'_append_eq_right⟩
  rw [setCol, hsplit.1, hsplit.2, hreg hhi, hreg hlo]

/-- One data byte at pointers that hold values (R160). -/
theorem recvData_store {page : BitVec 3} {col : Byte} (v : Byte) (hf : t.fault = false) (hp : t.pending = none)
    (hpage : pageValue t = some page) (hcol : colValue t = some col) (hle : col.toNat ≤ 131) :
    recvData v t = setCol (col + 1) { t with gram := Memory.write t.gram (gramKey page.toNat col.toNat) v } := by
  simp [recvData, hf, hp, hpage, hcol, Nat.not_lt.mpr hle]

/-- A run of data bytes that ends within the row is stored there in order, the column after its last byte. -/
theorem recvDatas_store {page : BitVec 3} (bs : List Byte) {t : Target} {n : Nat} (hf : t.fault = false)
    (hp : t.pending = none) (hpage : pageValue t = some page) (hcol : colValue t = some (BitVec.ofNat 8 n))
    (hn : n + bs.length ≤ 132) :
    recvDatas bs t =
      setCol (BitVec.ofNat 8 (n + bs.length)) { t with gram := storeRow t.gram (gramKey page.toNat n) bs } := by
  induction bs generalizing t n with
  | nil => exact (setCol_of_colValue hcol).symm
  | cons v bs ih =>
    rw [List.length_cons] at hn
    have htoNat : (BitVec.ofNat 8 n).toNat = n := by
      rw [BitVec.toNat_ofNat]; omega
    have hnext : BitVec.ofNat 8 n + 1 = BitVec.ofNat 8 (n + 1) := (BitVec.ofNat_add ..).symm
    rw [recvDatas_cons, recvData_store v hf hp hpage hcol (by omega), htoNat, hnext,
      ih (by exact hf) (by exact hp) (by exact hpage) (colValue_setCol ..) (by omega), List.length_cons,
      show n + 1 + bs.length = n + (bs.length + 1) by omega]
    rfl

end

/-- Settles O22: the arm that stores (`recvData_store`), where every other cell reads as before (`read_write_other`),
and the three arms that fault. -/
theorem dataByteIsStoredAtThePointers : Obligations.DataByteIsStoredAtThePointers := by
  unfold Obligations.DataByteIsStoredAtThePointers
  intro t v hf
  refine ⟨fun page col hp hpage hcol hle => ?stored, fun hp => ?pending, fun hnone => ?noPointer,
    fun col hcol hgt => ?pastTheRow⟩
  case stored =>
    exact ⟨_, recvData_store v hf hp hpage hcol hle, read_write_same .., fun k hk => read_write_other _ v hk⟩
  case pending => simp [recvData, hf, hp]
  case noPointer =>
    rcases recvData_cases v t with ⟨hf', _⟩ | ⟨_, heq, _⟩ | ⟨_, _, p, c, hpage, hcol, _⟩
    · rw [hf] at hf'; cases hf'
    · exact heq
    · simp [hpage, hcol] at hnone
  case pastTheRow =>
    have hgt' : 131 < col.toNat := hgt
    rcases recvData_cases v t with ⟨hf', _⟩ | ⟨_, heq, _⟩ | ⟨_, _, p, c, _, hcol', hle, _⟩
    · rw [hf] at hf'; cases hf'
    · exact heq
    · obtain rfl : col = c := by simpa [hcol] using hcol'
      omega

/-! ### Canonical memories -/

theorem read_eq_none_of_lt {m : Memory} {a : Nat} (h : ∀ x ∈ m, a < x.1) : Memory.read m a = none := by
  induction m with
  | nil => rfl
  | cons x m ih =>
    rw [Memory.read, if_neg (Nat.ne_of_gt (h x List.mem_cons_self))]
    exact ih fun y hy => h y (List.mem_cons_of_mem x hy)

/-- A canonical memory is read as its first entry there, and as its rest at every later address. -/
theorem wf_cons {x : Host.Cell} {m : Memory} (h : Memory.wf (x :: m)) :
    (∀ y ∈ m, x.1 < y.1) ∧ m.wf ∧ Memory.read (x :: m) x.1 = some x.2 :=
  ⟨(List.pairwise_cons.mp h).1, (List.pairwise_cons.mp h).2, if_pos rfl⟩

/-- Settles O39, by induction on both: the first entries are at the same address, since the lower of the two reads as
none in the other memory, and then the rests read alike too. -/
theorem canonicalMemoriesAreEqual : Obligations.CanonicalMemoriesAreEqual := by
  unfold Obligations.CanonicalMemoriesAreEqual
  intro m
  induction m with
  | nil =>
    intro n _ hn hread
    cases n with
    | nil => rfl
    | cons y n =>
      obtain ⟨-, -, hfirst⟩ := wf_cons hn
      rw [← hread] at hfirst
      cases hfirst
  | cons x m ih =>
    intro n hm hn hread
    obtain ⟨hmlt, hmwf, hmread⟩ := wf_cons hm
    cases n with
    | nil => simp [hread x.1] at hmread
    | cons y n =>
      obtain ⟨hnlt, hnwf, hnread⟩ := wf_cons hn
      have hkey : x.1 = y.1 := by
        rcases Nat.lt_trichotomy x.1 y.1 with hlt | heq | hgt
        · rw [hread, read_eq_none_of_lt] at hmread
          · cases hmread
          · simpa [hlt] using fun z hz => hlt.trans (hnlt z hz)
        · exact heq
        · rw [← hread, read_eq_none_of_lt] at hnread
          · cases hnread
          · simpa [hgt] using fun z hz => hgt.trans (hmlt z hz)
      have hcell : x = y := by
        rw [hread, hkey, hnread] at hmread
        exact Prod.ext hkey (Option.some.inj hmread).symm
      subst hcell
      rw [ih n hmwf hnwf fun a => ?_]
      by_cases ha : x.1 = a
      · subst ha
        rw [read_eq_none_of_lt hmlt, read_eq_none_of_lt hnlt]
      · simpa [Memory.read, ha] using hread a

end Sys2Proof.Machine
end

section
/-! The shadow while nothing but the engine drives it (70_reset_and_hazards.md R287): what each call of an operation
makes of a shadow in step, and so what every step keeps. -/

namespace Sys2Proof.Machine

/-! ### What a call delivers -/

/-- A command is received or not, whatever the answer (R252). -/
theorem answered_wc_target (b : Byte) (a : Answer) (s : State) :
    (answered (.wc b) a s).t = s.t ∨ (answered (.wc b) a s).t = recvCmd b s.t := by
  cases a with
  | wait => exact .inl rfl
  | ok => exact .inr (by simp [answered, transferOk_recvCall, recvCall])
  | fail sent received =>
    have heq : (answered (.wc b) (.fail sent received) s).t = recvPart (.wc b) received s.t := rfl
    rw [heq, recvPart]
    split
    · exact .inl rfl
    · exact .inr rfl

/-- Of a data write the first bytes are received, all of them or fewer (R252). -/
theorem answered_wd_target (bs : List Byte) (a : Answer) (s : State) :
    ∃ k, (answered (.wd bs) a s).t = recvDatas (bs.take k) s.t := by
  cases a with
  | wait => exact ⟨0, rfl⟩
  | ok => exact ⟨bs.length, by simp [answered, transferOk_recvCall, recvCall]⟩
  | fail sent received => exact ⟨received, rfl⟩

/-- Taking an answer changes no position's call. -/
theorem callAt_answerTaken (s : State) : callAt (answerTaken s) = callAt s := by
  unfold answerTaken
  split <;> rfl

/-- The dispatch of a request does not touch the target (R130). -/
theorem Dispatched.target_eq {s s' : State} (hd : Dispatched s s') : s'.t = s.t := by
  cases hd <;> simp

/-- Only a data position makes a data write (R201). -/
theorem seq_of_callAt_wd {s : State} {bs : List Byte} (h : callAt s = .ok (.wd bs)) : ∃ p, s.seq = .data p := by
  cases hq : s.seq with
  | data p => exact ⟨p, rfl⟩
  | tog k =>
    simp only [callAt, hq] at h
    split at h <;> cases h
  | _ => simp [callAt, hq] at h

theorem callAt_data_ne_wc {s : State} {p : Nat} {b : Byte} (hq : s.seq = .data p) : callAt s ≠ .ok (.wc b) := by
  simp only [callAt, hq]
  split <;> simp

/-- What a step can do to the target: nothing; the engine's call delivers its command byte, or the first bytes of its
data write; or, at rest, something arrives from outside. -/
inductive TargetMoved (s : State) (t : Target) : Prop
  | kept (ht : t = s.t)
  | command (hb : s.busy = true) (b : Byte) (hc : callAt s = .ok (.wc b)) (ht : t = recvCmd b s.t)
  | data (hb : s.busy = true) (p : Nat) (hq : s.seq = .data p) (bs : List Byte) (hlen : bs.length ≤ s.cfg.width)
      (ht : t = recvDatas bs s.t)
  | arrived (hb : s.busy = false) (hin : s.tin ≠ []) (hf : s.t.fault = true → t = s.t)

theorem Stepped.targetMoved {s s' : State} (h : Stepped s s') : TargetMoved s s'.t := by
  cases h with
  | pulse | clear => exact .kept (by simp)
  | write | idle => exact .kept rfl
  | request _ _ _ _ _ _ hd => exact .kept hd.target_eq
  | arrival hb x rest hx t hf => exact .arrived hb (by simp [hx]) hf
  | call hb c hc =>
    cases c with
    | wc b =>
      rcases answered_wc_target b (nextAnswer s) (answerTaken s) with heq | heq
      · exact .kept (by simpa using heq)
      · exact .command hb b hc (by simpa using heq)
    | wd bs =>
      obtain ⟨p, hq⟩ := seq_of_callAt_wd hc
      obtain ⟨k, heq⟩ := answered_wd_target bs (nextAnswer s) (answerTaken s)
      refine .data hb p hq (bs.take k) ?_ (by simpa using heq)
      rw [← callAt_wd hc]
      exact List.length_take_le' k bs

/-- A toggle byte outside the map is the operand of `set_contrast` (R185). -/
theorem togByte_unmapped {op : BitVec 3} {arg b : Byte} {k : Fin 2} (h : togByte op arg k = some b)
    (hu : classify b = .unmapped) : op = 4 ∧ k = 1 ∧ b = arg := by
  unfold togByte at h
  split at h
  case h_4 hop hk => cases h; exact ⟨BitVec.eq_of_toNat_eq hop, Fin.ext hk, rfl⟩
  case h_5 =>
    have key : ∀ arg : Byte, classify (0xA6 ||| (arg &&& 0x01)) ≠ .unmapped := by decide
    cases h
    exact absurd hu (key arg)
  case h_6 => cases h
  all_goals cases h; exact absurd hu (by decide)

/-! ### The ROM -/

/-- The command bytes of the ROM do not depend on the configuration; its parameters may. -/
theorem romByte_command (c : Cfg) {i : Fin 25} (h : romPending i = none) : romByte c i = romByte Config.board i := by
  revert h
  fin_cases i <;> simp [romPending, romByte, romBytes]

/-- The ROM's byte at a command index is a command, two-byte exactly where the next byte is its parameter (R171). -/
theorem romPending_after_command {i : Fin 25} (h : romPending i = none) :
    (∃ j, classify (romByte Config.board i) = .one j ∧ romPending (i + 1) = none) ∨
    ∃ m, classify (romByte Config.board i) = .two m ∧ romPending (i + 1) = some m := by
  have key : ∀ i, romPending i = none → (match classify (romByte Config.board i) with
      | .one _ => decide (romPending (i + 1) = none)
      | .two m => decide (romPending (i + 1) = some m)
      | .unmapped => false) = true := by decide
  have hi := key i h
  cases hb : classify (romByte Config.board i) with
  | one j => exact .inl ⟨j, rfl, by simpa [hb] using hi⟩
  | two m => exact .inr ⟨m, rfl, by simpa [hb] using hi⟩
  | unmapped => simp [hb] at hi

theorem romPending_after_parameter {i : Fin 25} {m : TwoByte} (h : romPending i = some m) :
    romPending (i + 1) = none := by
  have key : ∀ i, romPending i ≠ none → romPending (i + 1) = none := by decide
  exact key i (by simp [h])

/-- A ROM byte is taken in by a shadow in step, or by any at the first byte, which leaves it in step (R287). -/
theorem recvCmd_romByte (c : Cfg) {i : Fin 25} {t : Target} (hf : t.fault = false)
    (hp : i ≠ 0 → t.pending = romPending i) :
    (recvCmd (romByte c i) t).fault = false ∧ (recvCmd (romByte c i) t).pending = romPending (i + 1) := by
  cases hpend : t.pending with
  | some m =>
    have hnext : romPending (i + 1) = none := by
      by_cases hi : i = 0
      · rw [hi]; rfl
      · exact romPending_after_parameter ((hp hi).symm.trans hpend)
    rw [recvCmd_param _ hf hpend, hnext]
    simp [hf]
  | none =>
    have hcmd : romPending i = none := by
      by_cases hi : i = 0
      · rw [hi]; rfl
      · rw [← hp hi, hpend]
    rw [romByte_command c hcmd]
    rcases romPending_after_command hcmd with ⟨j, hj, hnext⟩ | ⟨m, hm, hnext⟩
    · obtain ⟨-, hpend', hf', -⟩ := shadowExec_keeps (classify_one hj) t
      rw [recvCmd_one hj hf hpend, hnext]
      exact ⟨hf'.trans hf, hpend'.trans hpend⟩
    · rw [recvCmd_two hm hf hpend, hnext]
      exact ⟨hf, rfl⟩

/-- The position after a ROM byte expects what the ROM's next byte is. -/
theorem shadowAt_succ_rom {c : Cfg} {op : BitVec 3} {i : Fin 25} {coloff : BitVec 7} {t : Target}
    (h : t.pending = romPending (i + 1)) : shadowAt coloff t (succ c op (.rom i)) := by
  by_cases hi : i.val + 1 < 25
  · have hnext : (⟨i.val + 1, hi⟩ : Fin 25) = i + 1 := Fin.ext (by simp [Fin.val_add, Nat.mod_eq_of_lt hi])
    rw [succ_rom hi, hnext]
    exact fun _ => h
  · obtain rfl : i = 24 := by omega
    exact h

/-! ### The calls of an operation at a shadow in step -/

section
variable {s : State}

/-- A show position is at a page that exists, and a page of GRAM. -/
theorem Inv.page_lt (h : Inv s) (hb : s.busy = true) {p : Nat} (hp : pageOf s.seq = some p) :
    p < pages s.cfg ∧ p < 8 := by
  have hlt := (positionFits_page (h.position hb) hp).2
  exact ⟨hlt, lt_of_lt_of_le hlt (pages_le h.cfg_legal)⟩

/-- An address byte of a show is a whole command (R198 to R200). -/
theorem Inv.classify_address (h : Inv s) (hb : s.busy = true) {p : Nat} (hp : pageOf s.seq = some p) {b : Byte}
    (hc : callAt s = .ok (.wc b)) : ∃ i, classify b = .one i := by
  cases hq : s.seq with
  | pageSel q =>
    obtain rfl : q = p := by simpa [pageOf, hq] using hp
    obtain rfl : pageByte q = b := by simpa [callAt, hq] using hc
    exact ⟨_, classify_pageByte (h.page_lt hb hp).2⟩
  | colLow q =>
    obtain rfl : colLowByte s.coloff = b := by simpa [callAt, hq] using hc
    exact ⟨_, classify_colLowByte s.coloff⟩
  | colHigh q =>
    obtain rfl : colHighByte s.coloff = b := by simpa [callAt, hq] using hc
    exact ⟨_, classify_colHighByte s.coloff⟩
  | data q => exact absurd hc (callAt_data_ne_wc hq)
  | idle | rom | clear | tog => rw [hq] at hp; cases hp

/-- A command byte the engine sends leaves a shadow in step where the next position expects it (R287). -/
theorem TargetInv.shadowAt_succ (h : TargetInv s) (hb : s.busy = true) (hf : s.t.fault = false) {b : Byte}
    (hc : callAt s = .ok (.wc b)) : shadowAt s.coloff (recvCmd b s.t) (succ s.cfg s.op s.seq) := by
  have hstep := h.in_step hf
  cases hq : s.seq with
  | idle | clear => simp [callAt, hq] at hc
  | data p => exact absurd hc (callAt_data_ne_wc hq)
  | rom i =>
    rw [hq] at hstep
    obtain rfl : romByte s.cfg i = b := by simpa [callAt, hq] using hc
    exact shadowAt_succ_rom (recvCmd_romByte s.cfg hf hstep).2
  | pageSel p =>
    rw [hq] at hstep
    obtain rfl : pageByte p = b := by simpa [callAt, hq] using hc
    have hp := (h.base.page_lt hb (p := p) (by rw [hq]; rfl)).2
    refine ⟨recvCmd_one_pending (classify_pageByte hp) hf, ?_⟩
    cases hpend : s.t.pending with
    | none => rw [recvCmd_pageByte hf hpend hp]; rfl
    | some m => exact recvCmd_page_has _ (hstep (by simp [hpend]))
  | colLow p =>
    rw [hq] at hstep
    obtain ⟨hpend, hpage⟩ := hstep
    obtain rfl : colLowByte s.coloff = b := by simpa [callAt, hq] using hc
    rw [recvCmd_colLowByte hf hpend]
    exact ⟨hpend, hpage, rfl⟩
  | colHigh p =>
    rw [hq] at hstep
    obtain ⟨hpend, hpage, hlow⟩ := hstep
    obtain rfl : colHighByte s.coloff = b := by simpa [callAt, hq] using hc
    rw [recvCmd_colHighByte hf hpend]
    exact ⟨hpend, hpage, hlow, rfl⟩
  | tog k => simp only [succ]; split <;> trivial

/-- A command byte the engine sends faults a shadow in step only as the second byte of `set_contrast` (R287). -/
theorem TargetInv.recvCmd_faults (h : TargetInv s) (hb : s.busy = true) (hf : s.t.fault = false) {b : Byte}
    (hc : callAt s = .ok (.wc b)) (hf' : (recvCmd b s.t).fault = true) :
    s.op = 4 ∧ s.seq = .tog 1 ∧ s.t.pending = none ∧ outsideMap s.arg = true := by
  obtain ⟨hpend, hu⟩ := Machine.recvCmd_faults hf hf'
  have haddress : ∀ p, pageOf s.seq ≠ some p := fun p hp => by
    obtain ⟨i, hi⟩ := h.base.classify_address hb hp hc
    rw [hi] at hu
    cases hu
  cases hq : s.seq with
  | idle | clear => simp [callAt, hq] at hc
  | pageSel p | colLow p | colHigh p | data p => exact absurd (by rw [hq]; rfl) (haddress p)
  | rom i =>
    have hstep := h.in_step hf
    rw [hq] at hstep
    obtain rfl : romByte s.cfg i = b := by simpa [callAt, hq] using hc
    rw [(recvCmd_romByte s.cfg hf hstep).1] at hf'
    cases hf'
  | tog k =>
    have hbyte : togByte s.op s.arg k = some b := by
      simp only [callAt, hq] at hc
      split at hc
      · cases hc; assumption
      · cases hc
    obtain ⟨hop, rfl, rfl⟩ := togByte_unmapped hbyte hu
    exact ⟨hop, rfl, hpend, (classify_unmapped_iff _).mp hu⟩

/-- The data write of a page, or its first bytes, is stored in the row `T.page` points at, from `COL_OFFSET` on. -/
theorem TargetInv.recvDatas_page (h : TargetInv s) (hf : s.t.fault = false) {p : Nat} (hq : s.seq = .data p)
    {bs : List Byte} (hlen : bs.length ≤ s.cfg.width) :
    recvDatas bs s.t = setCol (BitVec.ofNat 8 ((132 - s.cfg.width) / 2 + bs.length)) { s.t with
      gram := storeRow s.t.gram (gramKey s.t.page.val.toNat ((132 - s.cfg.width) / 2)) bs } := by
  have hstep := h.in_step hf
  rw [hq] at hstep
  obtain ⟨hpend, hpage, hlow, hhigh⟩ := hstep
  have hcoloff : s.coloff = colOffset s.cfg := h.base.coloff (by rw [hq]; simp [pageOf])
  have hcol : colValue s.t = some (BitVec.ofNat 8 ((132 - s.cfg.width) / 2)) := by
    obtain ⟨-, -, hjoin⟩ := coloff_nibbles s.coloff
    rw [← colOffset_toNat, ← hcoloff, ← hjoin]
    simp [colValue, hlow, hhigh, Reg.of]
  have hwindow := colOffset_add_width h.base.cfg_legal
  exact recvDatas_store bs hf hpend (by simp [pageValue, hpage]) hcol (by omega)

end

/-! ### Every step -/

/-- A fault is never cleared (R41), so a shadow that a call leaves without one had none. -/
theorem answered_fault {c : Call} {a : Answer} {s : State} (h : (answered c a s).t.fault = false) :
    s.t.fault = false := by
  by_contra hf
  replace hf : s.t.fault = true := by simpa using hf
  cases c with
  | wc b =>
    rcases answered_wc_target b a s with heq | heq <;> rw [heq] at h
    · simp [hf] at h
    · simp [hf] at h
  | wd bs =>
    obtain ⟨k, heq⟩ := answered_wd_target bs a s
    rw [heq] at h
    simp [hf] at h

/-- A call takes the value of the page pointer from no shadow. -/
theorem answered_page_has (c : Call) (a : Answer) {s : State} (h : s.t.page.has = true) :
    (answered c a s).t.page.has = true := by
  cases c with
  | wc b =>
    rcases answered_wc_target b a s with heq | heq <;> rw [heq]
    · exact h
    · exact recvCmd_page_has b h
  | wd bs =>
    obtain ⟨k, heq⟩ := answered_wd_target bs a s
    rw [heq, (recvDatas_keeps _ _).1, h]

section
variable {s : State}

/-- After a call the shadow is where the position reached expects it. -/
theorem TargetInv.answered_in_step (h : TargetInv s) (hb : s.busy = true) {c : Call} (hc : callAt s = .ok c)
    (a : Answer) (hf : s.t.fault = false) :
    shadowAt (answered c a s).coloff (answered c a s).t (answered c a s).seq := by
  have hcoloff : (answered c a s).coloff = s.coloff := by simp
  rw [hcoloff]
  cases a with
  | wait => exact h.in_step hf
  | fail => trivial
  | ok =>
    have ht : (answered c .ok s).t = recvCall c s.t := by simp [answered, transferOk_recvCall]
    rw [answered_ok_seq, ht]
    cases c with
    | wc b => exact h.shadowAt_succ hb hf hc
    | wd bs =>
      obtain ⟨p, hq⟩ := seq_of_callAt_wd hc
      have hstep := h.in_step hf
      rw [hq] at hstep ⊢
      have hpend : (recvDatas bs s.t).pending = none := (recvDatas_keeps bs s.t).2.trans hstep.1
      by_cases hp : p + 1 < pages s.cfg
      · rw [succ_data hp]; exact fun hne => absurd hpend hne
      · rw [succ_lastData (by omega)]; trivial

/-- Where a call leaves the engine in `Active` with a page to show, the page pointer has a value: the engine was in
`Active` before, or its `init` has just sent the last page. -/
theorem TargetInv.answered_addressed (h : TargetInv s) (hb : s.busy = true) {c : Call} (hc : callAt s = .ok c)
    (a : Answer) (hf : s.t.fault = false) (hp : 0 < pages s.cfg) (hl : (answered c a s).lc = .active) :
    (answered c a s).t.page.has = true := by
  refine answered_page_has c a ?_
  by_cases ha : s.lc = .active
  · exact h.addressed hf ha hp
  have ho : s.op = 0 := by
    by_contra ho
    exact ha (h.base.busy_active hb ho)
  cases a with
  | wait => exact absurd hl ha
  | fail => simp [answered, ho] at hl
  | ok =>
    by_cases hs : succ s.cfg s.op s.seq = .idle
    · have hfit := h.base.position hb
      rw [ho] at hfit hs
      obtain ⟨p, hq⟩ := data_of_initEnds (callAt_clear hc) hfit hs
      have hstep := h.in_step hf
      rw [hq] at hstep
      obtain ⟨-, hpage, -⟩ := hstep
      exact hpage
    · rw [answered_ok_next c hs] at hl
      exact absurd (by simpa using hl) ha

theorem TargetInv.answerTaken (h : TargetInv s) : TargetInv (answerTaken s) :=
  ⟨h.base.answerTaken, by simpa using h.in_step, by simpa using h.addressed⟩

/-- A call of the engine, whatever its answer. -/
theorem TargetInv.answered (h : TargetInv s) (hb : s.busy = true) {c : Call} (hc : callAt s = .ok c) (a : Answer) :
    TargetInv (answered c a s) where
  base := h.base.answered hb (callAt_clear hc) c a
  in_step hf := h.answered_in_step hb hc a (answered_fault hf)
  addressed hf hl hp := h.answered_addressed hb hc a (answered_fault hf) (by simpa using hp) hl

/-- `Clear` (R174): the ROM has left nothing pending. -/
theorem TargetInv.clearFb (h : TargetInv s) (hb : s.busy = true) (hq : s.seq = .clear) : TargetInv (clearFb s) := by
  have hinv := h.base.clearFb hb hq
  have hpend : s.t.fault = false → s.t.pending = none := fun hf => by
    have hstep := h.in_step hf
    rwa [hq] at hstep
  have hinit : s.lc = .initializing := h.base.initializing_iff.mpr ⟨hb, h.base.op_of_clear hb hq⟩
  rcases clearFb_cases s with ⟨hp, heq⟩ | ⟨hp, heq⟩ <;> rw [heq] at hinv ⊢
  · exact ⟨hinv, fun hf hne => absurd (hpend hf) hne, fun _ hl => by simp [hinit] at hl⟩
  · exact ⟨hinv, fun _ => trivial, fun _ _ hp' => absurd hp (Nat.ne_of_gt hp')⟩

/-- The dispatch of a request (R121): a show starts in `Active`, where the page pointer has a value. -/
theorem TargetInv.dispatched {s' : State} (h : TargetInv s) (hb : s.busy = false) (hr : s.tr = .ready)
    (hd : Dispatched s s') : TargetInv s' := by
  have hinv := h.base.dispatched hb hr hd
  cases hd with
  | init arg => exact ⟨hinv, fun _ hne => absurd rfl hne, fun _ => nofun⟩
  | rejected => exact ⟨hinv, h.in_step, h.addressed⟩
  | toggle => exact ⟨hinv, fun _ => trivial, h.addressed⟩
  | show' arg ha =>
    rcases showEntry_cases (latch 1 arg s) with ⟨hp, heq⟩ | ⟨hp, _⟩
    · rw [heq] at hinv ⊢
      exact ⟨hinv, fun hf _ => h.addressed hf ha hp, h.addressed⟩
    · rw [showEntry_latch_none hb (h.base.idle_iff.mpr hb) hp] at hinv ⊢
      refine ⟨hinv, fun hf => ?_, h.addressed⟩
      have hq : s.seq = .idle := h.base.idle_iff.mpr hb
      simp only [hq]
      trivial

theorem TargetInv.stepped {s' : State} (h : TargetInv s) (hin : s.tin = []) (hs : Stepped s s') : TargetInv s' := by
  have hinv := h.base.stepped hs
  cases hs with
  | pulse ht hr held hh => exact ⟨hinv, by simpa using h.in_step, by simpa using h.addressed⟩
  | clear hb hq => exact h.clearFb hb hq
  | call hb c hc =>
    have hc' : callAt (Machine.answerTaken s) = .ok c := by rw [callAt_answerTaken, hc]
    exact h.answerTaken.answered (by simpa using hb) hc' _
  | arrival hb x rest hx => rw [hin] at hx; cases hx
  | request hb w rest hh hr _ hd =>
    have hrest : TargetInv { s with host := rest } := ⟨h.base.setHost rest, h.in_step, h.addressed⟩
    exact hrest.dispatched hb hr hd
  | write | idle => exact ⟨hinv, h.in_step, h.addressed⟩

end

/-- Settles O51: whichever agent the step moves, the shadow stays where the position reached expects it; with nothing
at the port no arrival moves. -/
theorem stepKeepsTheTargetInvariant : Obligations.StepKeepsTheTargetInvariant := by
  unfold Obligations.StepKeepsTheTargetInvariant
  exact fun s s' h hin hstep => h.stepped hin (step_cases hstep).2

/-! ### Faults, pending parameters and GRAM -/

/-- Settles O52: of what reaches the shadow, a data write stores (`TargetInv.recvDatas_page`), and a command byte faults
it in the one way of `TargetInv.recvCmd_faults`. -/
theorem engineFaultsTheTargetOnlyBySetContrast : Obligations.EngineFaultsTheTargetOnlyBySetContrast := by
  unfold Obligations.EngineFaultsTheTargetOnlyBySetContrast
  intro s s' h hin hstep hf hf'
  cases (step_cases hstep).2.targetMoved with
  | kept ht => rw [ht, hf] at hf'; cases hf'
  | arrived _ hne => exact absurd hin hne
  | data _ p hq bs hlen ht =>
    rw [ht, h.recvDatas_page hf hq hlen] at hf'
    exact absurd hf' (by simp [setCol, hf])
  | command hb b hc ht =>
    rw [ht] at hf'
    exact ⟨hb, h.recvCmd_faults hb hf hc hf'⟩

/-- Settles O53: an address byte leaves nothing pending (`recvCmd_one_pending`), and a data byte what was. -/
theorem showMakesNothingPending : Obligations.ShowMakesNothingPending := by
  unfold Obligations.ShowMakesNothingPending
  intro s s' h hpage hstep
  cases (step_cases hstep).2.targetMoved with
  | kept ht => exact ⟨.inr (by rw [ht]), fun _ _ _ => ht⟩
  | arrived hb => simp [h.idle_iff.mpr hb, pageOf] at hpage
  | data _ p hq bs _ ht => exact ⟨.inr (by rw [ht, (recvDatas_keeps bs s.t).2]), fun hne => absurd hq (hne p)⟩
  | command hb b hc ht =>
    obtain ⟨p, hp⟩ := Option.ne_none_iff_exists'.mp hpage
    obtain ⟨i, hi⟩ := h.classify_address hb hp hc
    cases hf : s.t.fault with
    | true => exact ⟨.inr (by rw [ht, recvCmd_of_fault b hf]), fun _ hf' => by cases hf'⟩
    | false =>
      have hnone : s'.t.pending = none := by rw [ht, recvCmd_one_pending hi hf]
      exact ⟨.inl hnone, fun _ _ hne => absurd hnone hne⟩

/-- Settles O43: a command byte leaves GRAM as it is (`recvCmd_gram`), and the data write of a page stores in the
columns of the window alone (`TargetInv.recvDatas_page`, `read_storeRow_other`). -/
theorem gramWriters : Obligations.GramWriters := by
  unfold Obligations.GramWriters
  constructor
  · intro s s' hstep hne
    cases (step_cases hstep).2.targetMoved with
    | kept ht => exact absurd (by rw [ht]) hne
    | command _ b _ ht => exact absurd (by rw [ht, recvCmd_gram]) hne
    | data hb p hq => exact .inl ⟨hb, p, hq⟩
    | arrived hb hin => exact .inr ⟨hb, hin⟩
  · intro s s' h hin hstep k hk
    cases (step_cases hstep).2.targetMoved with
    | kept ht => rw [ht]
    | command _ b _ ht => rw [ht, recvCmd_gram]
    | arrived _ hne => exact absurd hin hne
    | data _ p hq bs hlen ht =>
      cases hf : s.t.fault with
      | true => rw [ht, recvDatas_of_fault bs hf]
      | false =>
        rw [ht, h.recvDatas_page hf hq hlen]
        refine read_storeRow_other fun x hx => ?_
        rw [gramKey, gramW, Nat.add_assoc]
        exact hk x (lt_of_lt_of_le hx hlen)

end Sys2Proof.Machine
end

section
/-! Rules of the whole machine (10_state.md): what no step clears, what writes FB, what the traces gain, and that the
target is never read. -/

namespace Sys2Proof.Machine

/-! ### What each move writes -/

/-- The dispatch of a request writes neither FB nor a trace. -/
theorem Dispatched.keeps {s s' : State} (h : Dispatched s s') :
    s'.fb = s.fb ∧ s'.calls = s.calls ∧ s'.wire = s.wire := by
  cases h <;> simp

/-- The configuration warning is written by the acceptance of `init` alone (R30). -/
theorem Stepped.cfgWarn_cases {s s' : State} (h : Stepped s s') :
    s'.cfgWarn = s.cfgWarn ∨ s'.cfgWarn = warnAfter s.cfg s.cfgWarn := by
  cases h with
  | pulse | clear | call => exact .inl (by simp)
  | arrival | write | idle => exact .inl rfl
  | request _ _ _ _ _ _ hd =>
    cases hd with
    | init arg => exact .inr (by simp)
    | show' | toggle | rejected => exact .inl (by simp)

/-- Settles O40: the one write of the warning only adds to it, and whatever reaches a faulted shadow leaves it
(`TargetMoved`). -/
theorem stickyStateStays : Obligations.StickyStateStays := by
  unfold Obligations.StickyStateStays
  intro s s' hstep
  have hs := (step_cases hstep).2
  constructor
  · intro hw
    rcases hs.cfgWarn_cases with heq | heq <;> simp [heq, warnAfter, hw]
  · intro hf
    cases hs.targetMoved with
    | kept ht => exact ht
    | command _ b _ ht => rw [ht, recvCmd_of_fault b hf]
    | data _ _ _ bs _ ht => rw [ht, recvDatas_of_fault bs hf]
    | arrived _ _ hkeep => exact hkeep hf

/-- Settles O42, move by move. -/
theorem frameBufferWriters : Obligations.FrameBufferWriters := by
  unfold Obligations.FrameBufferWriters
  intro s s' hstep hne
  cases (step_cases hstep).2 with
  | clear hb hq => exact .inl ⟨hb, hq⟩
  | write hb a v rest hh => exact .inr ⟨hb, a, v, rest, hh⟩
  | pulse | call => exact absurd (by simp) hne
  | arrival | idle => exact absurd rfl hne
  | request _ _ _ _ _ _ hd => exact absurd hd.keeps.1 hne

/-- Settles O44: a call enters itself once in the transport trace (`answered_traces`), a phase of the pulse only events
in the wire trace, and no other move touches either. -/
theorem oneCallAStep : Obligations.OneCallAStep := by
  unfold Obligations.OneCallAStep
  intro s s' hstep
  cases (step_cases hstep).2 with
  | pulse ht hr held hh =>
    obtain ⟨es, hes, -⟩ := pulse_wire { s with host := held }
    exact ⟨[], es, by simp, hes, by simp, fun _ => rfl, fun _ _ => rfl⟩
  | clear => exact ⟨[], [], by simp⟩
  | arrival | write | idle => exact ⟨[], [], by simp⟩
  | request _ _ _ _ _ _ hd =>
    obtain ⟨-, hcalls, hwire⟩ := hd.keeps
    exact ⟨[], [], by simp [hcalls, hwire]⟩
  | call hb c hc =>
    have hrest : s.busy ≠ false := by simp [hb]
    rcases answered_traces c (nextAnswer s) (answerTaken s) with ⟨hcalls, hwire⟩ | ⟨ok, sent, hcalls, hwire⟩
    · exact ⟨[], [], by simp [hcalls], by simp [hwire], by simp, fun _ => rfl, fun _ _ => rfl⟩
    · exact ⟨_, _, by simpa using hcalls, by simpa using hwire, by simp, fun hb' => absurd hb' hrest,
        fun _ hq => absurd hq (callAt_clear hc)⟩

/-- Settles O49: the frame a call adds to the wire trace on I2C is one transaction with its payload, whatever the answer
(`wireFrame_i2c`), and the pulse does not run there. -/
theorem i2cWireIsTheFramedCallTrace : Obligations.I2cWireIsTheFramedCallTrace := by
  unfold Obligations.I2cWireIsTheFramedCallTrace
  intro s s' ht hw hstep
  cases (step_cases hstep).2 with
  | pulse ht' => rw [ht] at ht'; cases ht'
  | clear => simpa using hw
  | arrival | write | idle => exact hw
  | request _ _ _ _ _ _ hd =>
    obtain ⟨-, hcalls, hwire⟩ := hd.keeps
    rw [hd.cfg_eq, hcalls, hwire]
    exact hw
  | call hb c hc =>
    rcases answered_traces c (nextAnswer s) (answerTaken s) with ⟨hcalls, hwire⟩ | ⟨ok, sent, hcalls, hwire⟩
    · simpa [hcalls, hwire] using hw
    · simp [hcalls, hwire, hw, wireFrame_i2c ht]

/-! ### The target is never read -/

section
variable (t blank : Target) (s : State)

theorem pulse_setTarget : pulse { s with t := t } = { pulse s with t := t } := by
  unfold pulse
  dsimp only
  split <;> rfl

theorem showEntry_setTarget : showEntry { s with t := t } = { showEntry s with t := t } := by
  unfold showEntry
  dsimp only
  split <;> rfl

theorem answerTaken_setTarget : answerTaken { s with t := t } = { answerTaken s with t := t } := by
  unfold answerTaken
  cases s.script <;> rfl

theorem hostVerdict_setTarget (i : Instr) : hostVerdict i { s with t := t } = { hostVerdict i s with t := t } := by
  have hactive : ∀ entry : State → State, (entry { s with t := t } = { entry s with t := t }) →
      whenActive entry { s with t := t } = { whenActive entry s with t := t } := fun entry hentry => by
    unfold whenActive
    split
    · exact hentry
    · rfl
  unfold hostVerdict
  split
  case h_2 arg => exact hactive _ (showEntry_setTarget t (latch 1 arg s))
  case h_1 | h_7 => rfl
  all_goals exact hactive _ rfl

/-- What a call makes of the engine does not depend on the target. -/
theorem answered_setTarget (c : Call) (a : Answer) :
    { answered c a { s with t := t } with t := blank } = { answered c a s with t := blank } := by
  cases a with
  | wait | fail => rfl
  | ok =>
    simp only [answered, transferOk_recvCall, advance_eq]
    split <;> rfl

theorem engineStep_stops {s : State} {e : Fault} (hq : s.seq ≠ .clear) (hc : callAt s = .error e) :
    engineStep s = .fault e := by
  unfold engineStep
  split
  · exact absurd ‹_› hq
  · rw [hc]

theorem engineStep_forgets :
    forgetTarget blank (engineStep { s with t := t }) = forgetTarget blank (engineStep s) := by
  by_cases hq : s.seq = .clear
  · have hclear : clearFb { s with t := t } = { clearFb s with t := t } :=
      showEntry_setTarget t { s with fb := Memory.zero s.fb (fbSize s.cfg) }
    rw [engineStep_clear hq, engineStep_clear (by exact hq), hclear]
    rfl
  · have hcall : callAt { s with t := t } = callAt s := rfl
    cases hc : callAt s with
    | error e => rw [engineStep_stops hq hc, engineStep_stops (by exact hq) (hcall.trans hc)]
    | ok c =>
      rw [engineStep_call hc, engineStep_call (hcall.trans hc), answerTaken_setTarget]
      exact congrArg Host.Outcome.next (answered_setTarget t blank (answerTaken s) c (nextAnswer s))

theorem arrive_forgets (x : Arrival) :
    forgetTarget blank (arrive x { s with t := t }) = forgetTarget blank (arrive x s) := by
  cases x with
  | cmd b => rw [arrive_cmd, arrive_cmd]; rfl
  | data v => rfl
  | payload bs =>
    unfold arrive
    dsimp only
    cases hd : decodeFrame bs with
    | error e => rfl
    | ok i => rcases decodeFrame_cases hd with ⟨b, _, rfl⟩ | ⟨v, vs, _, rfl⟩ <;> rfl

theorem others_forgets : forgetTarget blank (others { s with t := t }) = forgetTarget blank (others s) := by
  unfold others
  dsimp only
  split
  · rw [pulse_setTarget]; rfl
  · split
    · rename_i x rest _
      exact arrive_forgets t blank { s with tin := rest } x
    · rfl

theorem hostStep_forgets : forgetTarget blank (hostStep { s with t := t }) = forgetTarget blank (hostStep s) := by
  unfold hostStep
  dsimp only
  split
  · exact others_forgets t blank s
  · rename_i rest _
    exact others_forgets t blank { s with host := rest }
  · rename_i w rest _
    split
    · rw [exec_decodeHost, exec_decodeHost]
      have hv := hostVerdict_setTarget t { s with host := rest } (decodeHost w)
      unfold offer
      dsimp only at hv ⊢
      rw [hv]
      split
      · split <;> rfl
      · rfl
    · exact others_forgets t blank s
  · unfold hostWrite
    dsimp only
    split <;> rfl

theorem step_forgets : forgetTarget blank (step { s with t := t }) = forgetTarget blank (step s) := by
  unfold step
  dsimp only
  split
  · split
    · split
      · rw [pulse_setTarget]; rfl
      · exact engineStep_forgets t blank s
    · exact hostStep_forgets t blank s
  · rfl

end

/-- Settles O45: whatever the target, the step is that of the same machine, but for the target (`step_forgets`). -/
theorem engineNeverReadsTheTarget : Obligations.EngineNeverReadsTheTarget := by
  unfold Obligations.EngineNeverReadsTheTarget
  intro s t u blank
  exact (step_forgets t blank s).trans (step_forgets u blank s).symm

end Sys2Proof.Machine
end

section
/-! The host at an engine at rest (40_host_operations.md section 1): the verdict on each request, the host's write and
reads, and the request a step runs. -/

namespace Sys2Proof.Machine

/-! ### Requests -/

section
variable {s : State} {arg : Byte}

/-- A request that may be dispatched has its verdict at once. -/
theorem offer_dispatch {verdict : State → State} (h : mayDispatch s) : offer verdict s = .next (verdict s) := by
  obtain ⟨hl, hb, hr⟩ := h
  exact offer_now hl hb hr

theorem whenActive_active {entry : State → State} (h : s.lc = .active) : whenActive entry s = entry s := if_pos h

theorem whenActive_rejects {entry : State → State} (h : s.lc ≠ .active) : whenActive entry s = raiseRejected s :=
  if_neg h

end

/-- Settles O9: the offer of `init` is taken, in whatever lifecycle state. -/
theorem initIsAccepted : Obligations.InitIsAccepted := by
  unfold Obligations.InitIsAccepted
  intro s arg h
  exact offer_dispatch (verdict := fun s => initEntry (latch 0 arg s)) h

/-- Settles O10: the offer of a show is taken, and its entry goes to the first page or, with none, completes. -/
theorem showIsAccepted : Obligations.ShowIsAccepted := by
  unfold Obligations.ShowIsAccepted
  intro s arg h ha
  have hexec : exec (.hShow arg) s = .next (showEntry (latch 1 arg s)) :=
    (offer_dispatch h).trans (congrArg _ (whenActive_active ha))
  rw [hexec]
  refine ⟨fun hh => congrArg _ (showEntry_first (s := latch 1 arg s) (pages_pos hh)), fun hh => ?_⟩
  exact congrArg _ (showEntry_none (s := latch 1 arg s) (pages_zero hh))

/-- Settles O11: the offer of each toggle is taken, and it starts at its first byte. -/
theorem togglesAreAccepted : Obligations.TogglesAreAccepted := by
  unfold Obligations.TogglesAreAccepted
  intro s arg h ha
  have haccept : ∀ op, offer (whenActive fun s => togEntry (latch op arg s)) s = .next (togEntry (latch op arg s)) :=
    fun op => (offer_dispatch h).trans (congrArg _ (whenActive_active ha))
  exact ⟨haccept 2, haccept 3, haccept 4, haccept 5⟩

/-- Settles O12: the verdict is Rejected for a reserved code always, and for the other five outside `Active`. -/
theorem requestsAreRejected : Obligations.RequestsAreRejected := by
  unfold Obligations.RequestsAreRejected
  refine ⟨rfl, fun s code arg h => ⟨offer_dispatch h, fun hn => ?_⟩⟩
  have hreject : ∀ entry, offer (whenActive entry) s = .next (raiseRejected s) :=
    fun entry => (offer_dispatch h).trans (congrArg _ (whenActive_rejects hn))
  simp only [List.forall_mem_cons]
  exact ⟨hreject _, hreject _, hreject _, hreject _, hreject _, List.forall_mem_nil _⟩

/-- What a verdict leaves as it was, and how `STATUS` and `ERR_SEQ` go together (R124, R257). -/
theorem Dispatched.frame {s s' : State} (h : Dispatched s s') :
    s' = { s with
      lc := s'.lc, busy := s'.busy, op := s'.op, arg := s'.arg, coloff := s'.coloff, seq := s'.seq,
      status := s'.status, cfgWarn := s'.cfgWarn, errSeq := s'.errSeq, ended := s'.ended } ∧
    ((s'.status = s.status ∧ s'.errSeq = s.errSeq ∧ s'.ended = s.ended) ∨
      (s'.busy = s.busy ∨ s'.busy = false) ∧ (s'.status = .ok ∨ s'.status = .rejected) ∧
        s'.errSeq = Config.freeErrSeq s.ended ∧ s'.ended = s.ended + 1) := by
  cases h with
  | init | toggle => exact ⟨rfl, .inl ⟨rfl, rfl, rfl⟩⟩
  | rejected => exact ⟨rfl, .inr ⟨.inl rfl, .inr rfl, rfl, rfl⟩⟩
  | show' arg ha =>
    rcases showEntry_cases (latch 1 arg s) with ⟨_, heq⟩ | ⟨_, heq⟩ <;> rw [heq]
    · exact ⟨rfl, .inl ⟨rfl, rfl, rfl⟩⟩
    · exact ⟨rfl, .inr ⟨.inr rfl, .inl rfl, rfl, rfl⟩⟩

/-- Settles O14: a host operation is held, and the state is as it was, or has one of the verdicts of `Dispatched`. -/
theorem hostOperationFrame : Obligations.HostOperationFrame := by
  unfold Obligations.HostOperationFrame
  intro s s' code arg i hi hexec
  rw [exec_hostOperation code arg s i hi] at hexec
  obtain ⟨-, ⟨rfl, -⟩ | ⟨hb, -, rfl⟩⟩ := offer_cases hexec
  · exact ⟨rfl, .inl ⟨rfl, rfl, rfl⟩⟩
  · obtain ⟨hframe, hends⟩ := (hostVerdict_dispatched i s).frame
    rw [hb, or_self] at hends
    exact ⟨hframe, hends⟩

/-- Settles O1: the step dispatches the word at the head of the host's list, which the decoder reads as `i`. -/
theorem stepRunsTheRequestedOperation : Obligations.StepRunsTheRequestedOperation := by
  unfold Obligations.StepRunsTheRequestedOperation
  intro s w rest i h hh hi
  obtain rfl : decodeHost w = i := by simpa [decode] using hi
  rw [step_request h hh, exec_decodeHost]
  exact (offer_dispatch (s := { s with host := rest }) h).symm

/-! ### The frame buffer and the status read-out -/

/-- Settles O16: the write is the host's move whatever the adapter phase, and a write stores one byte (`read_write`). -/
theorem hostWritesOneByte : Obligations.HostWritesOneByte := by
  unfold Obligations.HostWritesOneByte
  intro s a v rest hl hb hh
  have hstep : step s = hostWrite a v { s with host := rest } := by simp [step, hl, hb, hostStep, hh]
  rw [hstep, hostWrite]
  refine ⟨fun ha => ⟨_, if_pos ha, read_write_same s.fb a v, fun b hne => read_write_other s.fb v hne⟩, fun ha => ?_⟩
  exact if_neg (Nat.not_lt.mpr ha)

/-- Settles O17: the status items are those of the state, and a frame-buffer read has one case for each clause. -/
theorem hostReads : Obligations.HostReads := by
  unfold Obligations.HostReads
  intro s
  refine ⟨rfl, rfl, rfl, ?status, ?lifecycle, fun a => ⟨fun hb => ?busy, fun v hb ha hv => ?read,
    fun hb ha hv => ?noValue, fun hb ha => ?outside⟩⟩
  case status => cases hs : s.status <;> simp [statusView, statusCode, hs]
  case lifecycle => cases hl : s.lc <;> simp [statusView, lifecycleCode, hl]
  case busy => simp [hostReadFb, hb]
  case read => simp [hostReadFb, hb, fbSize, pages, ha, hv]
  case noValue => simp [hostReadFb, hb, fbSize, pages, ha, hv]
  case outside => simp [hostReadFb, hb, fbSize, pages, Nat.not_lt.mpr ha]

end Sys2Proof.Machine
end

section
/-! The instructions of the target at its own port (41_command_set.md, 45_transport_adapters.md R217): each writes the
shadow alone, and a step runs what has arrived. -/

namespace Sys2Proof.Machine

section
variable {s : State}

/-- A shadow without fault takes an instruction in. -/
theorem onTarget_next (f : Target → Target) (h : s.t.fault = false) :
    onTarget f s = .next { s with t := f s.t } := by
  simp [onTarget, unlessFault, h]

/-- A faulted shadow takes none (R41). -/
theorem unlessFault_fault (f : Target → Target) {t : Target} (h : t.fault = true) : unlessFault f t = t := if_pos h

end

/-- Settles O18: each is taken in (`onTarget_next`) and writes its own register. -/
theorem modeCommandsSetTheirRegister : Obligations.ModeCommandsSetTheirRegister := by
  unfold Obligations.ModeCommandsSetTheirRegister
  intro s h
  exact ⟨fun r => onTarget_next (setSegRemap r) h, onTarget_next followRam h, fun v => onTarget_next (setInvert v) h,
    fun d => onTarget_next (setComScan d) h⟩

/-- Settles O19: each is taken in (`onTarget_next`) and writes its own register. -/
theorem pointerAndDisplayCommandsSetTheirRegister : Obligations.PointerAndDisplayCommandsSetTheirRegister := by
  unfold Obligations.PointerAndDisplayCommandsSetTheirRegister
  intro s h
  exact ⟨fun n => onTarget_next (setColLow n) h, fun n => onTarget_next (setColHigh n) h,
    fun p => onTarget_next (setPage p) h, fun l => onTarget_next (setStartLine l) h,
    fun on => onTarget_next (setDisp on) h⟩

/-- Settles O20: each is taken in (`onTarget_next`) and its register takes the parameter. -/
theorem parameterCommandsSetTheirRegister : Obligations.ParameterCommandsSetTheirRegister := by
  unfold Obligations.ParameterCommandsSetTheirRegister
  intro s b h
  have htake : ∀ m, onTarget (takeParam m b) s = .next { s with t := takeParam m b s.t } := fun m => onTarget_next _ h
  exact ⟨htake .addrMode, htake .contrast, htake .chargePump, htake .muxRatio, htake .dispOffset, htake .clkDiv,
    htake .precharge, htake .comPins, htake .vcomDesel⟩

/-- A faulted shadow is left as it is by every instruction of the command stream. -/
theorem shadowExec_of_fault (i : Instr) {t : Target} (h : t.fault = true) : shadowExec i t = t := by
  unfold shadowExec
  split
  case h_19 | h_20 | h_21 | h_22 | h_23 | h_24 | h_25 | h_26 | h_27 => rfl
  all_goals exact unlessFault_fault _ h

/-- Settles O23: no entry point (`recvCmd_of_fault`, `recvDatas_of_fault`, `recvData_of_fault`) and no instruction
(`shadowExec_of_fault`, `unlessFault_fault`) changes a faulted shadow. -/
theorem faultedShadowTakesNothing : Obligations.FaultedShadowTakesNothing := by
  unfold Obligations.FaultedShadowTakesNothing
  intro s b bs h
  have hkeep : ∀ t, t = s.t → (.next { s with t := t } : Result) = .next s := fun t ht => by rw [ht]
  refine ⟨recvCmd_of_fault b h, recvDatas_of_fault bs h, recvData_of_fault b h, hkeep _ (recvCmd_of_fault b h),
    hkeep _ (recvDatas_of_fault bs h), fun i hi => ?_, fun m => ?_⟩
  · rw [exec_command i (classify_one hi)]
    exact hkeep _ (shadowExec_of_fault i h)
  · rw [exec_withParam]
    exact hkeep _ (unlessFault_fault _ h)

/-- Settles O24: the framing hands what follows the control byte to the entry point. -/
theorem controlBytesChooseTheEntryPoint : Obligations.ControlBytesChooseTheEntryPoint := by
  unfold Obligations.ControlBytesChooseTheEntryPoint
  exact fun s => ⟨fun _ => rfl, fun _ _ => rfl⟩

/-- What has arrived is taken while the host makes no move (log 6). -/
theorem step_arrive {s : State} {held : List HostMove} {x : Arrival} {rest : List Arrival} (h : mayArrive s)
    (hw : hostWaits s held) (hx : s.tin = x :: rest) :
    step s = arrive x { s with tin := rest, host := held } := by
  obtain ⟨hl, hb, hr⟩ := h
  rw [step_others hl hb hw, others, if_neg fun hp => hp.2 (hr hp.1)]
  simp only [hx]

/-- Settles O2: the step takes the arrival (`step_arrive`), which is run as what it decodes to: a payload, a command
(`exec_command`), or the parameter that completes a two-byte command. -/
theorem stepRunsTheArrivedInstruction : Obligations.StepRunsTheArrivedInstruction := by
  unfold Obligations.StepRunsTheArrivedInstruction
  intro s rest held h hw
  refine ⟨fun payload i hx hi => ?_, fun b i hx hf hp hi => ?_, fun m b i hx hf hp hi => ?_⟩ <;>
    rw [step_arrive h hw hx]
  · have hd : decodeFrame payload = .ok i := hi
    simp only [arrive, hd]
  · rcases decode_command_cases hi with ⟨b', hbs, hb⟩ | ⟨_, _, hbs, _⟩
    · obtain rfl : b = b' := by simpa using hbs
      simp [arrive, fetch, hf, hp, hb]
    · simp at hbs
  · obtain rfl : withParam m b = i := by simpa [decode_two] using hi
    simp [arrive, fetch, hf, hp]

/-- Settles O32: the pulse moves whether a busy engine finds it running or the host makes no move, and each phase is an
equation. -/
theorem resetPulseRunsFirst : Obligations.ResetPulseRunsFirst := by
  unfold Obligations.ResetPulseRunsFirst
  intro s held hl ht hmove
  have hstep : s.tr ≠ .ready → step s = .next (pulse { s with host := held }) := fun hr => by
    rcases hmove with ⟨hb, rfl⟩ | ⟨hb, hw⟩
    · rw [step, if_pos hl, if_pos hb, if_pos ⟨ht, hr⟩]
    · rw [step_others hl hb hw, others, if_pos ⟨ht, hr⟩]
  refine ⟨fun hr => ?_, fun hr => ?_, fun hr => ?_, fun hr => ?_⟩ <;>
    rw [hstep (by simp [hr])] <;> simp only [pulse, hr] <;> rfl

end Sys2Proof.Machine
end

section
/-! What the shadow makes of a run of calls (20_memory.md, 41_command_set.md): the calls of a page, of a frame, of the
init ROM and of a toggle, each at a shadow in step. -/

namespace Sys2Proof.Machine

/-- What calls answered `ok` deliver to the shadow, in order (R130, R160). -/
def recvCalls (cs : List Call) (t : Target) : Target := cs.foldl (fun t c => recvCall c t) t

@[simp] theorem recvCalls_nil (t : Target) : recvCalls [] t = t := rfl

@[simp] theorem recvCalls_cons (c : Call) (cs : List Call) (t : Target) :
    recvCalls (c :: cs) t = recvCalls cs (recvCall c t) := rfl

theorem recvCalls_append (cs ds : List Call) (t : Target) :
    recvCalls (cs ++ ds) t = recvCalls ds (recvCalls cs t) := List.foldl_append

theorem unlessFault_ok (f : Target → Target) {t : Target} (h : t.fault = false) : unlessFault f t = f t := by
  simp [unlessFault, h]

/-! ### A page and a frame -/

/-- GRAM once the first `n` pages of a frame are stored, each in the columns of the window (R66). -/
def storePages (c : Cfg) (fb g : Memory) : Nat → Memory
  | 0 => g
  | n + 1 => storeRow (storePages c fb g n) (gramKey n ((132 - c.width) / 2)) (pageSlice c fb n)

section
variable {c : Cfg} {fb : Memory}

/-- A cell of the window holds the frame-buffer byte of its page and column (R203). -/
theorem read_storePages_window (hl : c.legal = true) (hf : fbFull c fb) (g : Memory) {n p x : Nat} (hn : n ≤ pages c)
    (hp : p < n) (hx : x < c.width) :
    Memory.read (storePages c fb g n) (p * 132 + ((132 - c.width) / 2 + x)) = Memory.read fb (fbIndex c p x) := by
  have hwindow := colOffset_add_width hl
  induction n with
  | zero => omega
  | succ n ih =>
    rw [storePages]
    by_cases hpn : p = n
    · subst hpn
      rw [← Nat.add_assoc]
      exact (read_storeRow_at (by simpa using hx)).trans (pageSlice_getElem? hf (by omega) hx)
    · rw [read_storeRow_other, ih (by omega) (by omega)]
      intro y hy
      rw [pageSlice_length] at hy
      simp only [gramKey, gramW]
      omega

/-- Every cell outside the window is as it was. -/
theorem read_storePages_other (g : Memory) {n k : Nat}
    (hk : ∀ p x, p < n → x < c.width → k ≠ p * 132 + ((132 - c.width) / 2 + x)) :
    Memory.read (storePages c fb g n) k = Memory.read g k := by
  induction n with
  | zero => rfl
  | succ n ih =>
    rw [storePages, read_storeRow_other, ih fun p x hp => hk p x (by omega)]
    intro x hx
    rw [gramKey, gramW, Nat.add_assoc]
    exact hk n x (by omega) (by simpa using hx)

/-- The four calls of a page, at a shadow in step, store its slice in the window of its row (R198 to R201). -/
theorem recvCalls_page (hl : c.legal = true) {p : Nat} (hp : p < pages c) {t : Target} (hf : t.fault = false)
    (hpend : t.pending = none) :
    recvCalls (pageCalls c fb p) t = setCol (BitVec.ofNat 8 ((132 - c.width) / 2 + c.width)) { t with
      gram := storeRow t.gram (gramKey p ((132 - c.width) / 2)) (pageSlice c fb p),
      page := Reg.of (BitVec.ofNat 3 p) } := by
  have hp8 : p < 8 := lt_of_lt_of_le hp (pages_le hl)
  obtain ⟨-, -, hcol⟩ := coloff_nibbles (colOffset c)
  rw [colOffset_toNat] at hcol
  have hpage : (BitVec.ofNat 3 p).toNat = p := by rw [BitVec.toNat_ofNat]; omega
  have hstore := recvDatas_store (pageSlice c fb p) (n := (132 - c.width) / 2) (page := BitVec.ofNat 3 p)
    (t := { t with
      page := Reg.of (BitVec.ofNat 3 p), colLo := Reg.of ((colOffset c).extractLsb' 0 4),
      colHi := Reg.of (((colOffset c).zeroExtend 8).extractLsb' 4 4) })
    hf hpend rfl (congrArg some hcol) (by simpa using colOffset_add_width hl)
  rw [hpage, pageSlice_length] at hstore
  rw [pageCalls, ← colOffset_toNat c, ← colLowByte_eq, ← colHighByte_eq]
  simp only [recvCalls_cons, recvCalls_nil, recvCall]
  rw [← pageByte, recvCmd_pageByte hf hpend hp8, recvCmd_colLowByte (by exact hf) (by exact hpend),
    recvCmd_colHighByte (by exact hf) (by exact hpend), hstore, colOffset_toNat]
  rfl

/-- The pages of a frame up to `n`, at a shadow in step: they are stored, and the pointers stand after the last byte. -/
theorem recvCalls_pages (hl : c.legal = true) {t : Target} (hf : t.fault = false) (hpend : t.pending = none) (n : Nat)
    (hn : n < pages c) :
    recvCalls ((List.range (n + 1)).flatMap (pageCalls c fb)) t =
      setCol (BitVec.ofNat 8 ((132 - c.width) / 2 + c.width)) { t with
        gram := storePages c fb t.gram (n + 1), page := Reg.of (BitVec.ofNat 3 n) } := by
  induction n with
  | zero =>
    simp only [Nat.zero_add, List.range_one, List.flatMap_singleton]
    exact recvCalls_page hl hn hf hpend
  | succ n ih =>
    rw [List.range_succ, List.flatMap_append, recvCalls_append, ih (by omega), List.flatMap_singleton,
      recvCalls_page hl hn (by exact hf) (by exact hpend)]
    rfl

/-- A frame at a shadow in step fills the window, and the pointers stand after its last byte; with no page it changes
nothing (R203). -/
theorem recvCalls_frame (hl : c.legal = true) {t : Target} (hf : t.fault = false) (hpend : t.pending = none) :
    ∃ page colHi colLo,
      recvCalls (frameCalls c fb) t =
        { t with gram := storePages c fb t.gram (pages c), page := page, colHi := colHi, colLo := colLo } ∧
      (0 < pages c → page = Reg.of (BitVec.ofNat 3 (pages c - 1)) ∧
        colHi = Reg.of ((BitVec.ofNat 8 ((132 - c.width) / 2 + c.width)).extractLsb' 4 4) ∧
        colLo = Reg.of ((BitVec.ofNat 8 ((132 - c.width) / 2 + c.width)).extractLsb' 0 4)) ∧
      (pages c = 0 → page = t.page ∧ colHi = t.colHi ∧ colLo = t.colLo) := by
  unfold frameCalls
  cases hk : pages c with
  | zero => exact ⟨t.page, t.colHi, t.colLo, rfl, by simp, fun _ => ⟨rfl, rfl, rfl⟩⟩
  | succ n =>
    rw [recvCalls_pages hl hf hpend n (by omega)]
    exact ⟨_, _, _, rfl, fun _ => ⟨rfl, rfl, rfl⟩, by simp⟩

end

/-! ### The init ROM -/

/-- A two-byte command sent to a shadow in step: its register takes the parameter. -/
theorem recvCmd_twoBytes (m : TwoByte) (p : Byte) {t : Target} (hf : t.fault = false) (hpend : t.pending = none) :
    recvCmd p (recvCmd (commandByte m) t) = shadowExec (withParam m p) t := by
  rw [recvCmd_two (classify_commandByte m) hf hpend, recvCmd_param p (by exact hf) rfl]
  cases m <;> simp [withParam, shadowExec, unlessFault_ok _ hf, takeParam, setParam]

/-- An instruction of the command stream leaves a shadow in step. -/
theorem shadowExec_withParam_in_step (m : TwoByte) (p : Byte) {t : Target} (hf : t.fault = false) :
    (shadowExec (withParam m p) t).fault = false ∧ (shadowExec (withParam m p) t).pending = none := by
  have heq : shadowExec (withParam m p) t = takeParam m p t := by
    cases m <;> exact unlessFault_ok _ hf
  simp [heq, hf]

/-- A shadow in step takes a command stream in as the instructions it decodes to (R95, R139). -/
theorem recvCalls_stream {n : Nat} {bs : List Byte} {is : List Instr} {t : Target} (hf : t.fault = false)
    (hpend : t.pending = none) (h : decodeStream n bs = .ok is) :
    recvCalls (bs.map .wc) t = is.foldl (fun t i => shadowExec i t) t := by
  induction n generalizing bs is t with
  | zero =>
    cases bs with
    | nil => cases h; rfl
    | cons b bs => cases h
  | succ n ih =>
    cases bs with
    | nil => cases h; rfl
    | cons b bs =>
      cases hb : classify b with
      | unmapped => simp [decodeStream, decodeCommand, hb] at h
      | one i =>
        cases hrest : decodeStream n bs with
        | error e => simp [decodeStream, decodeCommand, hb, hrest] at h
        | ok js =>
          obtain rfl : i :: js = is := by simpa [decodeStream, decodeCommand, hb, hrest] using h
          obtain ⟨-, hpend', hf', -⟩ := shadowExec_keeps (classify_one hb) t
          simp only [List.map_cons, recvCalls_cons, recvCall, List.foldl_cons, recvCmd_one hb hf hpend]
          exact ih (hf'.trans hf) (hpend'.trans hpend) hrest
      | two m =>
        obtain rfl := classify_two hb
        cases bs with
        | nil => simp [decodeStream, decodeCommand] at h
        | cons p bs =>
          cases hrest : decodeStream n bs with
          | error e => simp [decodeStream, decodeCommand, hrest] at h
          | ok js =>
            obtain rfl : withParam m p :: js = is := by simpa [decodeStream, decodeCommand, hrest] using h
            obtain ⟨hf', hpend'⟩ := shadowExec_withParam_in_step m p hf
            simp only [List.map_cons, recvCalls_cons, recvCall, List.foldl_cons, recvCmd_twoBytes m p hf hpend]
            exact ih hf' hpend' hrest

/-- The target after the whole ROM: every mode register at its init value, GRAM and the pointers as they were (R171). -/
def afterRom (c : Cfg) (t : Target) : Target :=
  { gram := t.gram, page := t.page, colHi := t.colHi, colLo := t.colLo, pending := none, fault := false,
    dispOn := Reg.of 1, addrMode := Reg.of 0x00, startLine := Reg.of 0, segRemap := Reg.of 1,
    muxRatio := Reg.of (BitVec.ofNat 8 (c.height - 1)), comScan := Reg.of 1, dispOffset := Reg.of 0x00,
    comPins := Reg.of 0x12, clkDiv := Reg.of 0x80, precharge := Reg.of (if c.externalVcc then 0x22 else 0xF1),
    vcomDesel := Reg.of 0x30, contrast := Reg.of 0xFF, entireOn := Reg.of 0, invert := Reg.of 0,
    chargePump := Reg.of (if c.externalVcc then 0x10 else 0x14) }

theorem decodeStream_rest {n : Nat} {b : Byte} {bs : List Byte} {i j : Instr} {is : List Instr}
    (hb : classify b = .one i) (h : decodeStream (n + 1) (b :: bs) = .ok (j :: is)) : decodeStream n bs = .ok is := by
  cases hrest : decodeStream n bs with
  | error e => simp [decodeStream, decodeCommand, hb, hrest] at h
  | ok js =>
    obtain ⟨-, rfl⟩ : i = j ∧ js = is := by simpa [decodeStream, decodeCommand, hb, hrest] using h
    rfl

/-- All of the ROM but its first byte, at a shadow in step. -/
theorem recvCalls_romTail {c : Cfg} (hl : c.legal = true) {t : Target} (hf : t.fault = false)
    (hpend : t.pending = none) : recvCalls ((romBytes c).toList.tail.map .wc) t = afterRom c t := by
  refine (recvCalls_stream (bs := (romBytes c).toList.tail) hf hpend
    (decodeStream_rest (b := 0xAE) (i := .cDisp 0) (by decide) (romIsTheSixteenSteps c hl))).trans ?_
  obtain ⟨gram, page, colHi, colLo, pending, fault, _⟩ := t
  cases hf
  cases hpend
  simp [shadowExec, unlessFault, takeParam, setParam, setStartLine, setSegRemap, setComScan, followRam, setInvert,
    setDisp, afterRom]

/-- The first byte of the ROM turns the display of a shadow in step off, or is swallowed as the parameter awaited;
either way the shadow is in step after it (R287). -/
theorem recvCmd_firstRom {t : Target} (hf : t.fault = false) :
    (recvCmd 0xAE t).fault = false ∧ (recvCmd 0xAE t).pending = none ∧
      ∀ c, afterRom c (recvCmd 0xAE t) = afterRom c t := by
  cases hpend : t.pending with
  | some m =>
    obtain ⟨hg, hp, hhi, hlo, hf', hpend'⟩ := takeParam_keeps m 0xAE t
    rw [recvCmd_param _ hf hpend]
    exact ⟨hf'.trans hf, hpend', fun c => by rw [afterRom, hg, hp, hhi, hlo, afterRom]⟩
  | none =>
    have hone : recvCmd 0xAE t = setDisp 0 t :=
      (recvCmd_one (i := .cDisp 0) (by decide) hf hpend).trans (unlessFault_ok _ hf)
    rw [hone]
    exact ⟨hf, hpend, fun c => rfl⟩

theorem recvCalls_rom {c : Cfg} (hl : c.legal = true) {t : Target} (hf : t.fault = false) :
    recvCalls ((romBytes c).toList.map .wc) t = afterRom c t := by
  obtain ⟨hf', hpend', hafter⟩ := recvCmd_firstRom hf
  rw [← hafter c, ← recvCalls_romTail hl hf' hpend']
  rfl

/-! ### The toggles -/

section
variable {t : Target} (hf : t.fault = false) (hpend : t.pending = none)
include hf hpend

theorem recvCmd_disp (on : BitVec 1) {b : Byte} (hb : classify b = .one (.cDisp on)) :
    recvCmd b t = { t with dispOn := Reg.of on } :=
  (recvCmd_one hb hf hpend).trans (unlessFault_ok _ hf)

theorem recvCmd_invert (arg : Byte) :
    recvCmd (0xA6 ||| (arg &&& 0x01)) t = { t with invert := Reg.of (arg.extractLsb' 0 1) } := by
  have hb : ∀ arg : Byte, classify (0xA6 ||| (arg &&& 0x01)) = .one (.cNormInv (arg.extractLsb' 0 1)) := by decide
  exact (recvCmd_one (hb arg) hf hpend).trans (unlessFault_ok _ hf)

theorem recvCmd_contrastByte : recvCmd 0x81 t = { t with pending := some .contrast } :=
  recvCmd_two (m := .contrast) (by decide) hf hpend

/-- A byte that arrives where the contrast is awaited is the contrast (R139, R144). -/
theorem recvCmd_contrastValue (b : Byte) :
    recvCmd b { t with pending := some .contrast } = { t with contrast := Reg.of b } := by
  rw [recvCmd_param b (m := .contrast) (by exact hf) rfl]
  simp [takeParam, setParam, hpend]

end

end Sys2Proof.Machine
end

section
/-! Whole operations (42_init_sequence.md, 43_runtime_toggles.md, 44_show_frame_sequencer.md): what a run of calls
answered `ok` leaves of the target and of the lifecycle, and each operation from its request to its end. -/

namespace Sys2Proof.Machine

/-! ### A run that makes one call a step -/

/-- `k` steps make at most `k` calls. -/
theorem run_calls_le {k : Nat} {s s' : State} (h : run k s = .next s') :
    ∃ calls, s'.calls = s.calls ++ calls ∧ calls.length ≤ k := by
  induction k generalizing s with
  | zero => cases h; exact ⟨[], by simp, Nat.le_refl 0⟩
  | succ k ih =>
    cases hstep : step s with
    | fault f => simp [run, hstep] at h
    | refused r => simp [run, hstep] at h
    | next s₁ =>
      obtain ⟨first, _, hfirst, _, hle, _⟩ := oneCallAStep s s₁ hstep
      obtain ⟨calls, hcalls, hle'⟩ := ih (s := s₁) (by simpa [run, hstep] using h)
      exact ⟨first ++ calls, by rw [hcalls, hfirst, List.append_assoc], by rw [List.length_append]; omega⟩

/-- A step that enters an `ok` call in the trace is the call's. -/
theorem step_okCall {s s₁ : State} {c : Call} (h : step s = .next s₁) (hc : s₁.calls = s.calls ++ [okCall c]) :
    s.busy = true ∧ s₁ = answered c .ok (answerTaken s) := by
  have hgrows : s₁.calls ≠ s.calls := by simp [hc]
  cases (step_cases h).2 with
  | pulse | clear => exact absurd (by simp) hgrows
  | arrival | write | idle => exact absurd rfl hgrows
  | request _ _ _ _ _ _ hd =>
    obtain ⟨-, hsame, -⟩ := hd.keeps
    exact absurd hsame hgrows
  | call hb c' _ =>
    refine ⟨hb, ?_⟩
    generalize nextAnswer s = a at hc hgrows
    cases a with
    | wait => exact absurd (by simp [answered]) hgrows
    | ok =>
      obtain rfl : c' = c := by simpa [okCall] using hc
      rfl
    | fail => simp [answered, transferFail_eq, okCall] at hc

/-- A run that makes as many calls as steps, every one answered `ok`, begins with the step of the first. -/
theorem run_okCalls {c : Call} {cs : List Call} {s s' : State} (hrun : run (c :: cs).length s = .next s')
    (hcalls : s'.calls = s.calls ++ (c :: cs).map okCall) :
    ∃ s₁, s.busy = true ∧ s₁ = answered c .ok (answerTaken s) ∧ run cs.length s₁ = .next s' ∧
      s'.calls = s₁.calls ++ cs.map okCall := by
  rw [List.length_cons, Nat.add_comm] at hrun
  cases hstep : step s with
  | fault f => simp [run, hstep, Nat.add_comm] at hrun
  | refused r => simp [run, hstep, Nat.add_comm] at hrun
  | next s₁ =>
    rw [run_step hstep] at hrun
    obtain ⟨first, _, hfirst, _, hle, _⟩ := oneCallAStep s s₁ hstep
    obtain ⟨more, hmore, hle'⟩ := run_calls_le hrun
    have hsplit : first ++ more = okCall c :: cs.map okCall := by
      rw [hmore, hfirst, List.append_assoc] at hcalls
      exact List.append_cancel_left hcalls
    have hlen := congrArg List.length hsplit
    simp only [List.length_append, List.length_cons, List.length_map] at hlen
    obtain ⟨hone, hrest⟩ : first = [okCall c] ∧ more = cs.map okCall :=
      List.append_inj hsplit (by simp; omega)
    obtain ⟨hb, heq⟩ := step_okCall hstep (by rw [hfirst, hone])
    exact ⟨s₁, hb, heq, hrun, by rw [hmore, hrest]⟩

/-- What such a run leaves of the target: the calls were delivered in order. -/
theorem run_okCalls_target {cs : List Call} {s s' : State} (hrun : run cs.length s = .next s')
    (hcalls : s'.calls = s.calls ++ cs.map okCall) : s'.t = recvCalls cs s.t := by
  induction cs generalizing s with
  | nil => cases hrun; rfl
  | cons c cs ih =>
    obtain ⟨s₁, -, rfl, hrun₁, hcalls₁⟩ := run_okCalls hrun hcalls
    rw [ih hrun₁ hcalls₁, recvCalls_cons]
    simp [answered, transferOk_recvCall]

theorem Sends.target {s s' : State} {cs : List Call} (h : Sends s cs s') : s'.t = recvCalls cs s.t :=
  run_okCalls_target h.runs h.calls

/-- An `init` that such a run ends is left in `Active` (R123). -/
theorem run_okCalls_init {cs : List Call} {s s' : State} (hrun : run cs.length s = .next s')
    (hcalls : s'.calls = s.calls ++ cs.map okCall) (ho : s.op = 0) (hb : s.busy = true) (hb' : s'.busy = false) :
    s'.lc = .active := by
  induction cs generalizing s with
  | nil => cases hrun; rw [hb] at hb'; cases hb'
  | cons c cs ih =>
    obtain ⟨s₁, -, hs₁, hrun₁, hcalls₁⟩ := run_okCalls hrun hcalls
    cases hb₁ : s₁.busy with
    | true => exact ih hrun₁ hcalls₁ (by simp [hs₁, ho]) hb₁
    | false =>
      cases cs with
      | cons d ds =>
        obtain ⟨_, hbusy, -⟩ := run_okCalls hrun₁ hcalls₁
        rw [hb₁] at hbusy
        cases hbusy
      | nil =>
        obtain rfl : s₁ = s' := by simpa using hrun₁
        by_cases hs : succ s.cfg s.op s.seq = .idle
        · rw [hs₁, answered_ok_last c (by simpa using hs)]
          simp [ho]
        · rw [hs₁, answered_ok_next c (by simpa using hs)] at hb₁
          simp [hb] at hb₁

/-! ### Shows -/

/-- Settles O54: it is what `run_show` says of one show. -/
theorem showSendsTheFrame : Obligations.ShowSendsTheFrame := by
  unfold Obligations.ShowSendsTheFrame
  intro s arg rest more hd ha hh hf hs
  obtain ⟨s', hrun, hcalls, hdone, hlc, -, -, hfb, hhost, hscript⟩ := run_show hd ha hh hf hs
  exact ⟨s', hrun, hcalls, hdone.status, hdone.busy, hdone.seq, hlc, hfb, hhost, hscript⟩

/-- Settles O55: the frame the show sends is delivered to the shadow (`Sends.target`), which stores it in the window
(`recvCalls_frame`, `read_storePages_window`, `read_storePages_other`). -/
theorem showFillsTheWindow : Obligations.ShowFillsTheWindow := by
  unfold Obligations.ShowFillsTheWindow
  intro s arg rest more hd ha hh hf hs hfault hpend hp
  have hstep := step_show hd ha hh
  obtain ⟨hl, hb, hr⟩ := hd
  obtain ⟨s', hsend, -⟩ :=
    showEntry_sends (s := latch 1 arg { s with host := rest }) ⟨hl, rfl, hr⟩ (by simp) hf hs
  obtain ⟨page, colHi, colLo, ht, hptr, -⟩ := recvCalls_frame (fb := s.fb) hl hfault hpend
  obtain ⟨rfl, rfl, rfl⟩ := hptr hp
  refine ⟨s', storePages s.cfg s.fb s.t.gram (pages s.cfg), ?_, ?_,
    fun p x hp' hx => read_storePages_window hl hf s.t.gram (Nat.le_refl _) hp' hx,
    fun k hk => read_storePages_other s.t.gram hk⟩
  · rw [run_step hstep]
    simpa using hsend.runs
  · rw [hsend.target, ← ht]
    simp

/-! ### Init -/

theorem Sends.refl (s : State) : Sends s [] s := by constructor <;> simp

/-- The entry of the show of an `init` (R174, R196), all its calls answered `ok`: the whole frame, and completion. -/
theorem showEntry_init_sends {s : State} {more : List Answer} (hm : mayCall s) (ho : s.op = 0)
    (hf : fbFull s.cfg s.fb) (hs : s.script = List.replicate (4 * pages s.cfg) .ok ++ more) :
    ∃ s', Sends (showEntry s) (frameCalls s.cfg s.fb) s' ∧ Completed s' ∧ s'.script = more ∧ s'.lc = .active := by
  cases hk : pages s.cfg with
  | zero =>
    have hnone : frameCalls s.cfg s.fb = [] := by simp [frameCalls, hk]
    rw [hnone, showEntry_none hk]
    exact ⟨_, Sends.refl _, ⟨rfl, rfl, rfl⟩, by simp [hs, hk], if_pos ho⟩
  | succ k =>
    obtain ⟨hshow, -⟩ := showEntry_pages hm (by omega)
    obtain ⟨s', hsend, hdone, hs'⟩ := hshow.sends_pages hf k (by omega) (by rw [← hk]; simpa using hs)
    rw [← List.range_eq_range', ← hk] at hsend
    obtain ⟨-, hb, -⟩ := hshow.may_call
    exact ⟨s', hsend, hdone, hs', run_okCalls_init hsend.runs hsend.calls (by simpa using ho) hb hdone.busy⟩

theorem romBytes_drop (c : Cfg) (i : Fin 25) :
    (romBytes c).toList.drop i.val = romByte c i :: (romBytes c).toList.drop (i.val + 1) := by
  rw [List.drop_eq_getElem_cons (by simp)]
  rfl

/-- The call of one ROM position (R172, R173). -/
theorem sends_romByte {i : Fin 25} {s : State} {more : List Answer} (hm : mayCall s) (hq : s.seq = .rom i)
    (hs : s.script = .ok :: more) :
    ∃ s', Sends s [.wc (romByte s.cfg i)] s' ∧ mayCall s' ∧ s'.seq = succ s.cfg s.op (.rom i) ∧ s'.script = more := by
  have hsend := sends_call hm (callAt_rom hq) hs
  have hnext : succ s.cfg s.op (.rom i) ≠ .idle := by rw [succ]; split <;> simp
  obtain ⟨hl, hb, hr⟩ := hm
  have hbusy := answered_ok_busy (.wc (romByte s.cfg i)) (s := answerTaken s) (by simpa [hq] using hnext)
  exact ⟨_, hsend, ⟨by simpa using hl, by simpa [hb] using hbusy, by simpa using hr⟩, by simp [hq],
    hsend.script_left hs⟩

/-- From a ROM position on, the rest of the ROM is sent and the engine stands at `Clear` (R172). -/
theorem sends_rom (k : Nat) {i : Fin 25} {s : State} {more : List Answer} (hk : i.val + k = 24) (hm : mayCall s)
    (hq : s.seq = .rom i) (hs : s.script = List.replicate (k + 1) .ok ++ more) :
    ∃ s', Sends s (((romBytes s.cfg).toList.drop i.val).map .wc) s' ∧ mayCall s' ∧ s'.seq = .clear ∧
      s'.script = more := by
  induction k generalizing i s with
  | zero =>
    obtain rfl : i = 24 := by omega
    exact sends_romByte hm hq hs
  | succ k ih =>
    have hi : i.val + 1 < 25 := by omega
    obtain ⟨s₁, hsend, hm₁, hq₁, hs₁⟩ := sends_romByte hm hq hs
    rw [succ_rom hi] at hq₁
    obtain ⟨s', hsend', hrest⟩ := ih (i := ⟨i.val + 1, hi⟩) (by simp only; omega) hm₁ hq₁ hs₁
    rw [hsend.cfg] at hsend'
    rw [romBytes_drop, List.map_cons]
    exact ⟨s', hsend.trans hsend', hrest⟩

/-- The step that dispatches a request, whose word decodes to `i` (R121). -/
theorem step_dispatch {s : State} {w : HostWord} {i : Instr} {rest : List HostMove} (hd : mayDispatch s)
    (hh : s.host = .req w :: rest) (hi : decodeHost w = i) :
    step s = .next (hostVerdict i { s with host := rest }) := by
  rw [step_request hd hh, hi]

/-- An `init` whose calls are all answered `ok`, from its request to its end (R170 to R176): the ROM, `Clear`, and the
frame of the zeroed frame buffer. -/
theorem run_init {s : State} {arg : Byte} {rest : List HostMove} {more : List Answer} (hd : mayDispatch s)
    (hh : s.host = .req (hostWord 0 arg) :: rest)
    (hs : s.script = List.replicate (25 + 4 * pages s.cfg) .ok ++ more) :
    ∃ s', run (27 + 4 * pages s.cfg) s = .next s' ∧ Completed s' ∧ s'.lc = .active ∧ s'.host = rest ∧
      s'.script = more ∧ s'.fb = Memory.zero s.fb (fbSize s.cfg) ∧
      s'.calls = s.calls ++ ((romBytes s.cfg).toList.map Call.wc ++ frameCalls s.cfg s'.fb).map okCall ∧
      s'.t = recvCalls (frameCalls s.cfg s'.fb) (recvCalls ((romBytes s.cfg).toList.map .wc) s.t) := by
  have hstep : step s = .next (initEntry (latch 0 arg { s with host := rest })) :=
    step_dispatch (i := .hInit arg) hd hh (by simp)
  obtain ⟨hl, hb, hr⟩ := hd
  obtain ⟨s₁, hrom, hm₁, hq₁, hs₁⟩ := sends_rom 24 (i := 0) (s := initEntry (latch 0 arg { s with host := rest }))
    (more := List.replicate (4 * pages s.cfg) .ok ++ more) rfl ⟨hl, rfl, hr⟩ rfl
    (by rw [← List.append_assoc, ← List.replicate_add]; exact hs)
  have hcfg₁ : s₁.cfg = s.cfg := by simpa using hrom.cfg
  have hclear : step s₁ = .next (showEntry { s₁ with fb := Memory.zero s₁.fb (fbSize s₁.cfg) }) := by
    obtain ⟨hl₁, hb₁, hr₁⟩ := hm₁
    rw [step_busy hl₁ hb₁ hr₁, engineStep_clear hq₁, clearFb]
  obtain ⟨s', hframe, hdone, hscript, hlc⟩ :=
    showEntry_init_sends (s := { s₁ with fb := Memory.zero s₁.fb (fbSize s₁.cfg) }) hm₁ (by simpa using hrom.op)
      (fbFull_zero s₁.cfg s₁.fb) (by rw [← hcfg₁] at hs₁; exact hs₁)
  have hfb₁ : s₁.fb = s.fb := by simpa using hrom.fb
  have hfb : s'.fb = Memory.zero s₁.fb (fbSize s₁.cfg) := by simpa using hframe.fb
  have hcalls : s'.calls = s₁.calls ++ (frameCalls s₁.cfg s'.fb).map okCall := by simpa [hfb] using hframe.calls
  have ht : s'.t = recvCalls (frameCalls s₁.cfg s'.fb) s₁.t := by simpa [hfb] using hframe.target
  refine ⟨s', ?_, hdone, hlc, ?_, hscript, by rw [hfb, hfb₁, hcfg₁], ?_, ?_⟩
  · have hrun₁ : run 25 (initEntry (latch 0 arg { s with host := rest })) = .next s₁ := hrom.runs
    have hrun : run (4 * pages s₁.cfg) (showEntry { s₁ with fb := Memory.zero s₁.fb (fbSize s₁.cfg) }) = .next s' := by
      have hframes := hframe.runs
      rwa [frameCalls_length] at hframes
    rw [show 27 + 4 * pages s.cfg = 1 + (25 + (1 + 4 * pages s₁.cfg)) by rw [hcfg₁]; omega, run_step hstep,
      run_add _ hrun₁, run_step hclear, hrun]
  · have hhost : s'.host = s₁.host := by simpa using hframe.host
    rw [hhost]
    simpa using hrom.host
  · rw [hcalls, hrom.calls, hcfg₁]
    simp
  · rw [ht, hrom.target, hcfg₁]
    rfl

/-- Settles O56: the ROM puts the shadow in step with every mode register at its init value (`recvCalls_rom`), and the
frame of zeroes fills the window (`recvCalls_frame`). -/
theorem initLeavesABlankActiveDisplay : Obligations.InitLeavesABlankActiveDisplay := by
  unfold Obligations.InitLeavesABlankActiveDisplay
  intro s arg rest more hd hh hs hf
  obtain ⟨s', hrun, hdone, hlc, hhost, hscript, hfb, hcalls, ht⟩ := run_init hd hh hs
  have hl := hd.1
  have hfull : fbFull s.cfg s'.fb := by rw [hfb]; exact fbFull_zero s.cfg s.fb
  have hzero : ∀ a, a < fbSize s.cfg → Memory.read s'.fb a = some 0x00 := fun a ha => by
    rw [hfb, read_zero, if_pos ha]
  rw [recvCalls_rom hl hf] at ht
  obtain ⟨page, colHi, colLo, hframe, hptr, hkeep⟩ :=
    recvCalls_frame (fb := s'.fb) hl (t := afterRom s.cfg s.t) rfl rfl
  refine ⟨s', storePages s.cfg s'.fb s.t.gram (pages s.cfg), page, colHi, colLo, hrun, hlc, hdone.status, hdone.busy,
    hdone.seq, hhost, hscript, hzero, hcalls, ht.trans hframe, fun p x hp hx => ?_,
    fun k hk => read_storePages_other s.t.gram hk, hptr, hkeep⟩
  rw [read_storePages_window hl hfull s.t.gram (Nat.le_refl _) hp hx]
  exact hzero _ (fbIndex_lt hp hx)

/-! ### Toggles -/

/-- A run of `n` steps takes the request at the port to its end: it makes the calls `cs`, every one answered `ok`, and
leaves the engine ready for the next request in `Active`. -/
structure Served (s : State) (n : Nat) (cs : List Call) (rest : List HostMove) (more : List Answer) (s' : State) :
    Prop where
  runs : run n s = .next s'
  done : Completed s'
  lc : s'.lc = .active
  may_dispatch : mayDispatch s'
  calls : s'.calls = s.calls ++ cs.map okCall
  target : s'.t = recvCalls cs s.t
  fb : s'.fb = s.fb
  host : s'.host = rest
  script : s'.script = more

section
variable {s : State} {op : BitVec 3} {arg : Byte} {rest : List HostMove} {more : List Answer}

/-- An accepted toggle makes its first call at once. -/
theorem mayCall_togEntry (hd : mayDispatch s) : mayCall (togEntry (latch op arg { s with host := rest })) := by
  obtain ⟨hl, -, hr⟩ := hd
  exact ⟨hl, rfl, hr⟩

/-- What the calls of an accepted toggle, once sent, make of the request. -/
theorem served_of_sends {cs : List Call} {s' : State} (hd : mayDispatch s) (ha : s.lc = .active) (ho : op ≠ 0)
    (hstep : step s = .next (togEntry (latch op arg { s with host := rest })))
    (hsend : Sends (togEntry (latch op arg { s with host := rest })) cs s') (hdone : Completed s')
    (hmore : s'.script = more) : Served s (1 + cs.length) cs rest more s' where
  runs := by rw [run_step hstep, hsend.runs]
  done := hdone
  lc := by rw [hsend.lc ho]; exact ha
  may_dispatch := by
    obtain ⟨hl, -, hr⟩ := hd
    exact ⟨by rw [hsend.cfg]; exact hl, hdone.busy, by rw [hsend.tr]; exact hr⟩
  calls := hsend.calls
  target := hsend.target
  fb := hsend.fb
  host := hsend.host
  script := hmore

/-- A toggle of one byte, answered `ok` (R186, R187, R189). -/
theorem serves_oneByte {b : Byte} (hd : mayDispatch s) (ha : s.lc = .active) (ho : op ≠ 0) (ho' : op ≠ 4)
    (hstep : step s = .next (togEntry (latch op arg { s with host := rest })))
    (hb : togByte op arg 0 = some b) (hs : s.script = .ok :: more) : ∃ s', Served s 2 [.wc b] rest more s' := by
  have hsend := sends_call (mayCall_togEntry (rest := rest) hd) (callAt_tog (k := 0) rfl hb) hs
  have hlast : succ s.cfg op (.tog 0) = .idle := succ_tog ho'
  obtain ⟨hbusy, hstatus⟩ := answered_ok_ends (.wc b)
    (s := answerTaken (togEntry (latch op arg { s with host := rest }))) (by simpa using hlast)
  exact ⟨_, served_of_sends hd ha ho hstep hsend ⟨hbusy, by simpa using hlast, hstatus⟩ (hsend.script_left hs)⟩

/-- The first byte of `set_contrast`, answered `ok`: the operand is the next call (R185, R188). -/
theorem sends_contrastByte {s₀ : State} (hm : mayCall s₀) (ho : s₀.op = 4) (hq : s₀.seq = .tog 0)
    (hs : s₀.script = .ok :: more) :
    ∃ s₁, Sends s₀ [.wc 0x81] s₁ ∧ mayCall s₁ ∧ s₁.seq = .tog 1 ∧ callAt s₁ = .ok (.wc s₀.arg) ∧ s₁.script = more := by
  have hsend := sends_call hm (callAt_tog (b := 0x81) hq (by rw [ho]; rfl)) hs
  have hnext : succ s₀.cfg s₀.op s₀.seq = .tog 1 := by rw [hq, ho]; rfl
  obtain ⟨hl, hb, hr⟩ := hm
  have hbusy := answered_ok_busy (.wc 0x81) (s := answerTaken s₀) (by simp [hnext])
  have hseq : (answered (.wc 0x81) .ok (answerTaken s₀)).seq = .tog 1 := by simpa using hnext
  have hbyte := callAt_tog (b := s₀.arg) hseq (by simp only [answered_fields, answerTaken_fields, ho]; rfl)
  exact ⟨_, hsend, ⟨by simpa using hl, by simpa [hb] using hbusy, by simpa using hr⟩, hseq, hbyte, hsend.script_left hs⟩

/-- `set_contrast`, both bytes answered `ok` (R188). -/
theorem serves_contrast (hd : mayDispatch s) (ha : s.lc = .active)
    (hstep : step s = .next (togEntry (latch 4 arg { s with host := rest }))) (hs : s.script = .ok :: .ok :: more) :
    ∃ s', Served s 3 [.wc 0x81, .wc arg] rest more s' := by
  obtain ⟨s₁, hsend, hm₁, hq₁, hc₁, hs₁⟩ :=
    sends_contrastByte (mayCall_togEntry (op := 4) (arg := arg) (rest := rest) hd) rfl rfl hs
  have hsend₂ := sends_call hm₁ hc₁ hs₁
  have hlast : succ s₁.cfg s₁.op s₁.seq = .idle := by rw [hq₁]; rfl
  obtain ⟨hbusy, hstatus⟩ := answered_ok_ends (.wc arg) (s := answerTaken s₁) (by simpa using hlast)
  exact ⟨_, served_of_sends hd ha (by decide) hstep (hsend.trans hsend₂) ⟨hbusy, by simpa using hlast, hstatus⟩
    (hsend₂.script_left hs₁)⟩

/-- The step that dispatches a toggle in `Active` (R121). -/
theorem step_toggle {w : HostWord} {i : Instr} (hd : mayDispatch s) (ha : s.lc = .active)
    (hh : s.host = .req w :: rest) (hi : decodeHost w = i)
    (hv : hostVerdict i = whenActive fun s => togEntry (latch op arg s)) :
    step s = .next (togEntry (latch op arg { s with host := rest })) := by
  rw [step_dispatch hd hh hi, hv]
  exact congrArg _ (whenActive_active ha)

end

section
variable {s : State} {arg : Byte} {rest : List HostMove} {more : List Answer}

theorem serves_powerOff (hd : mayDispatch s) (ha : s.lc = .active) (hh : s.host = .req (hostWord 2 arg) :: rest)
    (hs : s.script = .ok :: more) : ∃ s', Served s 2 [.wc 0xAE] rest more s' :=
  serves_oneByte hd ha (op := 2) (by decide) (by decide)
    (step_toggle (i := .hPowerOff arg) hd ha hh (by simp) rfl) rfl hs

theorem serves_powerOn (hd : mayDispatch s) (ha : s.lc = .active) (hh : s.host = .req (hostWord 3 arg) :: rest)
    (hs : s.script = .ok :: more) : ∃ s', Served s 2 [.wc 0xAF] rest more s' :=
  serves_oneByte hd ha (op := 3) (by decide) (by decide)
    (step_toggle (i := .hPowerOn arg) hd ha hh (by simp) rfl) rfl hs

theorem serves_invert (hd : mayDispatch s) (ha : s.lc = .active) (hh : s.host = .req (hostWord 5 arg) :: rest)
    (hs : s.script = .ok :: more) : ∃ s', Served s 2 [.wc (0xA6 ||| (arg &&& 0x01))] rest more s' :=
  serves_oneByte hd ha (op := 5) (by decide) (by decide)
    (step_toggle (i := .hSetInvert arg) hd ha hh (by simp) rfl) rfl hs

theorem step_contrast (hd : mayDispatch s) (ha : s.lc = .active) (hh : s.host = .req (hostWord 4 arg) :: rest) :
    step s = .next (togEntry (latch 4 arg { s with host := rest })) :=
  step_toggle (i := .hSetContrast arg) hd ha hh (by simp) rfl

end

/-- Settles O57: each toggle is served (`serves_oneByte`, `serves_contrast`), and its bytes, delivered in order, write
its register. -/
theorem togglesRunToTheirEnd : Obligations.TogglesRunToTheirEnd := by
  unfold Obligations.TogglesRunToTheirEnd
  intro s arg rest more hd ha hs hf hpend
  refine ⟨fun hh => ?off, fun hh => ?on, fun hh => ?contrast, fun hh => ?invert⟩
  case off =>
    obtain ⟨s', h⟩ := serves_powerOff hd ha hh hs
    exact ⟨s', h.runs, h.done.busy, h.done.status, h.lc, h.calls,
      h.target.trans (recvCmd_disp hf hpend 0 (by decide)), h.fb⟩
  case on =>
    obtain ⟨s', h⟩ := serves_powerOn hd ha hh hs
    exact ⟨s', h.runs, h.done.busy, h.done.status, h.lc, h.calls,
      h.target.trans (recvCmd_disp hf hpend 1 (by decide)), h.fb⟩
  case contrast =>
    obtain ⟨s', h⟩ := serves_contrast hd ha (step_contrast hd ha hh) hs
    refine ⟨s', h.runs, h.done.busy, h.done.status, h.lc, h.calls, h.target.trans ?_, h.fb⟩
    simp only [recvCalls_cons, recvCalls_nil, recvCall, recvCmd_contrastByte hf hpend, recvCmd_contrastValue hf hpend]
  case invert =>
    obtain ⟨s', h⟩ := serves_invert hd ha hh hs
    exact ⟨s', h.runs, h.done.busy, h.done.status, h.lc, h.calls, h.target.trans (recvCmd_invert hf hpend arg), h.fb⟩

/-- Settles O58: the two requests are served one after the other, and the second writes back the value `T.invert`
had. -/
theorem invertTwiceIsNoInvert : Obligations.InvertTwiceIsNoInvert := by
  unfold Obligations.InvertTwiceIsNoInvert
  intro s rest more hd ha hh hs hf hpend hinv
  obtain ⟨s₁, h₁⟩ := serves_invert (arg := 1) hd ha hh hs
  obtain ⟨s₂, h₂⟩ := serves_invert (arg := 0) h₁.may_dispatch h₁.lc h₁.host h₁.script
  have ht₁ : s₁.t = { s.t with invert := Reg.of 1 } := h₁.target.trans (recvCmd_invert hf hpend 1)
  have ht₂ : s₂.t = { s₁.t with invert := Reg.of 0 } :=
    h₂.target.trans (recvCmd_invert (by rw [ht₁]; exact hf) (by rw [ht₁]; exact hpend) 0)
  refine ⟨s₂, (run_add 2 h₁.runs).trans h₂.runs, ?_, h₂.done.status, ?_⟩
  · rw [ht₂, ht₁, ← hinv]
  · rw [h₂.calls, h₁.calls, List.append_assoc]
    rfl

/-- A `set_contrast` whose second byte fails and is not received ends with BusError there, and leaves the parameter
awaited (R250, R252). -/
theorem run_failedContrast {s : State} {value : Byte} {sent : Nat} {rest : List HostMove} {more : List Answer}
    (hd : mayDispatch s) (ha : s.lc = .active) (hh : s.host = .req (hostWord 4 value) :: rest)
    (hs : s.script = .ok :: .fail sent 0 :: more) (hf : s.t.fault = false) (hpend : s.t.pending = none) :
    ∃ s', run 3 s = .next s' ∧ s'.status = .busError ∧ s'.errSeq = .tog 1 ∧ s'.lc = .active ∧ mayDispatch s' ∧
      s'.t = { s.t with pending := some .contrast } ∧ s'.host = rest ∧ s'.script = more := by
  obtain ⟨s₁, hsend, hm₁, hq₁, hc₁, hs₁⟩ :=
    sends_contrastByte (mayCall_togEntry (op := 4) (arg := value) (rest := rest) hd) rfl rfl hs
  have hfail := run_one (step_answered hm₁ hc₁ hs₁)
  have hop : s₁.op ≠ 0 := by rw [hsend.op]; simp
  have hlc : s₁.lc = .active := (hsend.lc (by simp)).trans ha
  obtain ⟨hl₁, -, hr₁⟩ := hm₁
  exact ⟨_, (run_step (step_contrast hd ha hh) 2).trans ((run_add 1 hsend.runs).trans hfail), rfl, hq₁,
    (if_neg hop).trans hlc, ⟨hl₁, rfl, hr₁⟩, hsend.target.trans (recvCmd_contrastByte hf hpend), hsend.host, rfl⟩

/-- Settles O60: the failed `set_contrast` leaves the contrast awaited (`run_failedContrast`) and the engine ready, so
`power_on` is served and its byte is taken for the contrast. -/
theorem failedContrastSwallowsTheNextByte : Obligations.FailedContrastSwallowsTheNextByte := by
  unfold Obligations.FailedContrastSwallowsTheNextByte
  intro s value arg sent rest more hd ha hf hpend hh hs
  obtain ⟨s₁, hrun, hstatus, herr, hlc, hd₁, ht, hh₁, hs₁⟩ := run_failedContrast hd ha hh hs hf hpend
  obtain ⟨s₂, h₂⟩ := serves_powerOn hd₁ hlc hh₁ hs₁
  obtain ⟨-, hb₁, -⟩ := hd₁
  refine ⟨s₁, s₂, hrun, hstatus, herr, hlc, hb₁, ht, h₂.runs, h₂.done.status, h₂.done.busy, ?_⟩
  rw [h₂.target, ht]
  exact recvCmd_contrastValue hf hpend 0xAF

end Sys2Proof.Machine
end
